-- ==== Sys2Proof/Word.lean ====
section
/-!
DEFINITION. The word of the machine (00_scope.md R5, R6): every architectural value is an unsigned 8-bit byte,
bit 7 the most significant and bit 0 the least significant.
The arithmetic of R7 (`+8`, `-8`, `*8`: results modulo 256) is BitVec's own.
-/

namespace Sys2Proof

/-- R6: a byte, the "word" of the source, 0 to 255. -/
abbrev Byte := BitVec 8

/-- R10: a register index, 0 to 7. -/
abbrev RegIndex := Fin 8

end Sys2Proof
end

