-- ==== Sys2Proof/Config.lean ====
section
/-!
DEFINITION. What is fixed for the machine (00_scope.md R5, 10_state.md R23), the three model switches of R5, and
the two texts that the spec leaves to the host (free values, no body).
-/

namespace Sys2Proof

/-- R5 MEM_SIZE: the number of memory words. -/
abbrev Config.memSize : Nat := 256

/-- R5 SP_INDEX: the register that is the stack pointer. -/
abbrev Config.spIndex : RegIndex := 7

/-- R5 SP_RESET: the stack pointer after reset. -/
abbrev Config.spReset : Byte := 0xF4#8

/-- R5 PC_RESET. -/
abbrev Config.pcReset : Byte := 0x00#8

/-- R5 FL_RESET. -/
abbrev Config.flReset : Byte := 0x00#8

/-- R5 MEM_RESET: every memory word after reset, so also what an address that memory does not list reads as. -/
abbrev Config.memReset : Byte := 0x00#8

/-- R5 LOAD_BASE: the address of the first word the loader writes. -/
abbrev Config.loadBase : Nat := 0

/-- The switch TOP_OF_MEMORY of R5 (93_implementation_defined.md U4). -/
inductive TopOfMemory where
  /-- this spec's rules: instruction addresses are modulo 256 -/
  | wrap
  /-- an instruction that would form an address above 255 halts the core before any effect -/
  | fault
  deriving DecidableEq, Repr

/-- The switch REG_INDEX_POLICY of R5 (93_implementation_defined.md U6). -/
inductive RegIndexPolicy where
  /-- this spec's rules: a register operand byte above 7 raises BadRegister -/
  | fault
  /-- the low 3 bits of the byte name the register -/
  | mask3
  deriving DecidableEq, Repr

/-- The three model switches of R5. -/
structure Switches where
  topOfMemory       : TopOfMemory
  regIndexPolicy    : RegIndexPolicy
  pcFallbackCompare : Bool
  deriving DecidableEq, Repr

/-- R5: the values the rules of the spec are written for. -/
def Config.defaultSwitches : Switches :=
  { topOfMemory := .wrap, regIndexPolicy := .fault, pcFallbackCompare := false }

/-- The newline character(s) the host writes after a printed value: not stated (R87, U11, N10), a free value. -/
opaque Config.newline : List Char

/-- The text of the bad-instruction diagnostic, from the ten values it carries: not given (R122, U11, N11), a
free value. -/
opaque Config.diagnosticText : List Byte → List Char

end Sys2Proof
end

