-- ==== Sys2Proof/Machine/State.lean ====
section
/-!
DEFINITION. The state of the core: exactly the list of 10_state.md R22, as plain data, and its value after reset.
The reasons a host action can stop with are here too.
-/

namespace Sys2Proof.Machine

/-- R18, R70: the run state. -/
inductive RunState where
  /-- from reset until the host's Start -/
  | idle
  /-- the core takes steps -/
  | running
  /-- terminal but for the host's Reset -/
  | halted
  deriving DecidableEq, Repr

/-- R18, R121: why the core halted. -/
inductive HaltCause where
  /-- the core has not halted -/
  | none
  /-- the clean halt of R115 -/
  | hlt
  /-- R122 -/
  | badOpcode
  /-- R123 -/
  | badRegister
  /-- R125, unreachable -/
  | unsupportedAluOp
  /-- U4: the cause the model adds for the switch TOP_OF_MEMORY = fault; `stepWith` alone records it, `step` never
  does (log entry 20) -/
  | topOfMemory
  deriving DecidableEq, Repr

/-- R19: one event of the output stream. -/
inductive Event where
  /-- R86: the value PRN prints -/
  | print (v : Byte)
  /-- R122: pc, the two memory words after the opcode, and the eight registers in index order -/
  | badInstruction (pc m1 m2 : Byte) (regs : Vector Byte 8)
  deriving DecidableEq, Repr

/-- R20, R30: memory, as (address, byte) pairs; its canonical form is `Memory.wf` (Machine/Ops.lean). An address
that is not listed reads as `Config.memReset` (R22's reset contents; the form is DEDUCED, log entry 2). -/
abbrev Memory := List Host.Cell

/-- R22: the complete state of the core. -/
structure State where
  /-- R20: the 256 words -/
  mem       : Memory
  /-- R10: x[0] to x[7]; x[7] is the stack pointer (R12) -/
  x         : Vector Byte 8
  /-- R14 -/
  pc        : Byte
  /-- R16: bit 0 Equal, bit 1 Greater-Than, bit 2 Less-Than, bits 7:3 zero -/
  fl        : Byte
  /-- R18 -/
  runState  : RunState
  /-- R18 -/
  haltCause : HaltCause
  /-- R18 -/
  haltInfo  : Byte
  /-- R19: oldest event first -/
  out       : List Event
  deriving DecidableEq, Repr

/-- R22, R140: the state after reset. The core is IDLE: the host's Load and Start come before the first fetch. -/
def State.reset : State :=
  { mem := []
    x := #v[0x00#8, 0x00#8, 0x00#8, 0x00#8, 0x00#8, 0x00#8, 0x00#8, Config.spReset]
    pc := Config.pcReset
    fl := Config.flReset
    runState := .idle
    haltCause := .none
    haltInfo := 0x00#8
    out := [] }

/-- The faults. `step` and `stepWith` raise none: every exception of the core is a next state (R124, U4). -/
inductive Fault where
  /-- R32, R44: raised by the host port for a write to an address above 255; memory is unchanged. Safe: nothing
  is claimed of the host after it. -/
  | memWriteOutOfRange (addr : Nat)
  /-- R144, U13: raised by the host port for an access to memory or registers while the core is RUNNING, a move
  the host must not make (DESIGN CHOICE, log entry 18). Safe: no behaviour is claimed for it. -/
  | hostAccessWhileRunning
  deriving DecidableEq, Repr

/-- The refusals. No instruction's meaning raises one. -/
inductive Refusal where
  /-- an instruction that has no meaning in the model: none. Safe. -/
  | notModelled (mnemonic : String)
  /-- R147: raised by the host port for a Load while RUNNING or HALTED. Safe: nothing changes. -/
  | loadNotIdle
  /-- R147: raised by the host port for a Load of more than 256 words. Safe: nothing changes. -/
  | loadTooLong (n : Nat)
  /-- R144: raised by the host port for a single write while HALTED. Safe: nothing changes. -/
  | memWriteHalted
  deriving DecidableEq, Repr

end Sys2Proof.Machine
end

