-- ==== Sys2Proof/Machine/Flags.lean ====
section
/-!
DEFINITION. The flags register (10_state.md R16, R17) and the one flag computation of the hardware, CMP's
(42_alu.md R93).
-/

namespace Sys2Proof.Machine

/-- R16: `fl.E`, bit 0. -/
def State.flE (s : State) : Bool := s.fl.getLsbD 0

/-- R16: `fl.G`, bit 1. -/
def State.flG (s : State) : Bool := s.fl.getLsbD 1

/-- R16: `fl.L`, bit 2. -/
def State.flL (s : State) : Bool := s.fl.getLsbD 2

/-- R93: all 8 bits of `fl` after CMP of the unsigned values `a` and `b`. -/
def compareFlags (a b : Byte) : Byte :=
  if a = b then 0x01#8
  else if b.toNat < a.toNat then 0x02#8
  else 0x04#8

/-- R17: `fl <- v` (CMP only). -/
def State.setFl (s : State) (v : Byte) : State := { s with fl := v }

end Sys2Proof.Machine
end

