-- ==== Sys2Proof/Syntax.lean ====
section
/-!
DEFINITION. The thirteen instructions (30_encoding.md R57), one constructor per row of spec/opcode_table.json.
An operand is the operand BYTE as fetched (R51, R53): a register operand byte above 7 is a term of this type, and
the operand check of 40_execution_engine.md R74 raises BadRegister for it (WellFormed.lean says which terms pass it).
-/

namespace Sys2Proof

/-- An instruction: the operation its opcode byte selects, and its operand bytes in address order. -/
inductive Instr where
  /-- R115, format Z -/
  | hlt
  /-- R106, format Z -/
  | ret
  /-- R100, format R -/
  | push (ra : Byte)
  /-- R101, format R -/
  | pop (ra : Byte)
  /-- R86, format R -/
  | prn (ra : Byte)
  /-- R105, format R -/
  | call (ra : Byte)
  /-- R110, format R -/
  | jmp (ra : Byte)
  /-- R111, format R -/
  | jeq (ra : Byte)
  /-- R112, format R -/
  | jne (ra : Byte)
  /-- R85, format RI -/
  | ldi (ra imm : Byte)
  /-- R91, format RR -/
  | add (ra rb : Byte)
  /-- R92, format RR -/
  | mul (ra rb : Byte)
  /-- R93, format RR -/
  | cmp (ra rb : Byte)
  deriving DecidableEq, Repr

end Sys2Proof
end

