-- ==== Sys2Proof/WellFormed.lean ====
section
/-!
DEFINITION. Which instructions pass the operand check (30_encoding.md R53, R55, R59): every register operand byte
is 0 to 7. The immediate of LDI has no illegal value (R54, R59).
-/

namespace Sys2Proof

/-- R55: a byte that names a register. -/
def isRegByte (b : Byte) : Bool := b.toNat ≤ 7

/-- R51, R55: every register operand byte of the instruction names a register. -/
def Instr.wellFormed : Instr → Bool
  | .hlt => true
  | .ret => true
  | .push ra => isRegByte ra
  | .pop ra => isRegByte ra
  | .prn ra => isRegByte ra
  | .call ra => isRegByte ra
  | .jmp ra => isRegByte ra
  | .jeq ra => isRegByte ra
  | .jne ra => isRegByte ra
  | .ldi ra _ => isRegByte ra
  | .add ra rb => isRegByte ra && isRegByte rb
  | .mul ra rb => isRegByte ra && isRegByte rb
  | .cmp ra rb => isRegByte ra && isRegByte rb

end Sys2Proof
end

