-- ==== Sys2Proof/Decode.lean ====
section
/-!
DEFINITION. The dispatcher and the encodings (30_encoding.md R50 to R60, 40_execution_engine.md R80): from the opcode
byte to the operation, its format and length; from bytes to an instruction, rejecting by name; and the encoder.
The opcode values are written once, in `Opcode.code`.
-/

namespace Sys2Proof

/-- What an opcode byte selects (R56, R57). -/
inductive Opcode where
  | hlt | ret | push | pop | prn | call | jmp | jeq | jne | ldi | add | mul | cmp
  deriving DecidableEq, Repr

/-- R51: the four formats. -/
inductive Format where
  /-- opcode alone -/
  | z
  /-- opcode, register -/
  | r
  /-- opcode, register, register -/
  | rr
  /-- opcode, register, immediate -/
  | ri
  deriving DecidableEq, Repr

/-- Why bytes are no instruction. -/
inductive DecodeError where
  /-- there is no byte at all -/
  | noBytes
  /-- R58: the opcode byte is none of the 13 -/
  | unrecognized (op : Byte)
  /-- fewer operand bytes follow than the opcode's format has (cannot happen in memory, which is circular) -/
  | truncated (k : Opcode)
  deriving DecidableEq, Repr

/-- R57: the opcode byte of each instruction. -/
def Opcode.code : Opcode → Byte
  | .hlt => 0x01#8
  | .ret => 0x11#8
  | .push => 0x45#8
  | .pop => 0x46#8
  | .prn => 0x47#8
  | .call => 0x50#8
  | .jmp => 0x54#8
  | .jeq => 0x55#8
  | .jne => 0x56#8
  | .ldi => 0x82#8
  | .add => 0xA0#8
  | .mul => 0xA2#8
  | .cmp => 0xA7#8

/-- R57: the format of each instruction. -/
def Opcode.format : Opcode → Format
  | .hlt => .z
  | .ret => .z
  | .push => .r
  | .pop => .r
  | .prn => .r
  | .call => .r
  | .jmp => .r
  | .jeq => .r
  | .jne => .r
  | .ldi => .ri
  | .add => .rr
  | .mul => .rr
  | .cmp => .rr

/-- R50, R51: the number of operand bytes of a format. -/
def Format.arity : Format → Nat
  | .z => 0
  | .r => 1
  | .rr => 2
  | .ri => 2

/-- R57, R60: the number of operand bytes, from the opcode alone. -/
def Opcode.arity (k : Opcode) : Nat := k.format.arity

/-- R57, R61: the mnemonic. -/
def Opcode.mnemonic : Opcode → String
  | .hlt => "HLT"
  | .ret => "RET"
  | .push => "PUSH"
  | .pop => "POP"
  | .prn => "PRN"
  | .call => "CALL"
  | .jmp => "JMP"
  | .jeq => "JEQ"
  | .jne => "JNE"
  | .ldi => "LDI"
  | .add => "ADD"
  | .mul => "MUL"
  | .cmp => "CMP"

/-- The 13 operations, in opcode order (R57). -/
def Opcode.all : List Opcode :=
  [.hlt, .ret, .push, .pop, .prn, .call, .jmp, .jeq, .jne, .ldi, .add, .mul, .cmp]

/-- R56: `Decode(op)`; `none` is `Unrecognized`. The comparison is on all 8 bits. -/
def decodeOpcode (op : Byte) : Option Opcode :=
  Opcode.all.find? fun k => k.code == op

/-- R51: the instruction an opcode makes with its operand bytes 1 and 2 (those its format has). -/
def Opcode.build (k : Opcode) (b1 b2 : Byte) : Instr :=
  match k with
  | .hlt => .hlt
  | .ret => .ret
  | .push => .push b1
  | .pop => .pop b1
  | .prn => .prn b1
  | .call => .call b1
  | .jmp => .jmp b1
  | .jeq => .jeq b1
  | .jne => .jne b1
  | .ldi => .ldi b1 b2
  | .add => .add b1 b2
  | .mul => .mul b1 b2
  | .cmp => .cmp b1 b2

/-- R35, R51: the operand bytes after the opcode, in ascending address order, and what is left after them. -/
def takeOperands (k : Opcode) (bytes : List Byte) : Except DecodeError (Instr × List Byte) :=
  match k.arity, bytes with
  | 0, rest => .ok (k.build 0 0, rest)
  | 1, b1 :: rest => .ok (k.build b1 0, rest)
  | 2, b1 :: b2 :: rest => .ok (k.build b1 b2, rest)
  | _, _ => .error (.truncated k)

/-- R50, R56: the instruction at the head of a list of bytes and the bytes after it. Total: every other list is
rejected by name. A register operand byte above 7 is no matter of decoding (R56, R71): the operand check raises
BadRegister for it when the instruction executes (DEDUCED from R56 and R71, log entry 21). -/
def decode : List Byte → Except DecodeError (Instr × List Byte)
  | [] => .error .noBytes
  | op :: rest =>
    match decodeOpcode op with
    | none => .error (.unrecognized op)
    | some k => takeOperands k rest

/-- The operation of an instruction. -/
def Instr.opcode : Instr → Opcode
  | .hlt => .hlt
  | .ret => .ret
  | .push _ => .push
  | .pop _ => .pop
  | .prn _ => .prn
  | .call _ => .call
  | .jmp _ => .jmp
  | .jeq _ => .jeq
  | .jne _ => .jne
  | .ldi _ _ => .ldi
  | .add _ _ => .add
  | .mul _ _ => .mul
  | .cmp _ _ => .cmp

/-- R50: the length in bytes, 1 plus the number of operand bytes. -/
def Instr.length (i : Instr) : Nat := 1 + i.opcode.arity

/-- R51: the operand bytes, in ascending address order. -/
def Instr.operandBytes : Instr → List Byte
  | .hlt => []
  | .ret => []
  | .push ra => [ra]
  | .pop ra => [ra]
  | .prn ra => [ra]
  | .call ra => [ra]
  | .jmp ra => [ra]
  | .jeq ra => [ra]
  | .jne ra => [ra]
  | .ldi ra imm => [ra, imm]
  | .add ra rb => [ra, rb]
  | .mul ra rb => [ra, rb]
  | .cmp ra rb => [ra, rb]

/-- R8, R61: a register operand in the spec's assembly notation, R0 to R7. A byte of 8 to 255 names no register (R53),
and R8 gives no notation for it: that it is written R8 to R255 is DESIGN CHOICE (log entry 25). -/
def regName (b : Byte) : String := "R" ++ Nat.repr b.toNat

/-- R8, R61: an instruction in the spec's assembly notation: the mnemonic, then its operands in byte order, separated
by commas, an immediate in decimal (R8 allows a `0x` number too; DESIGN CHOICE, log entry 25). The notation has no effect on the hardware (D18). -/
def Instr.assembly (i : Instr) : String :=
  match i with
  | .hlt => i.opcode.mnemonic
  | .ret => i.opcode.mnemonic
  | .push ra => i.opcode.mnemonic ++ " " ++ regName ra
  | .pop ra => i.opcode.mnemonic ++ " " ++ regName ra
  | .prn ra => i.opcode.mnemonic ++ " " ++ regName ra
  | .call ra => i.opcode.mnemonic ++ " " ++ regName ra
  | .jmp ra => i.opcode.mnemonic ++ " " ++ regName ra
  | .jeq ra => i.opcode.mnemonic ++ " " ++ regName ra
  | .jne ra => i.opcode.mnemonic ++ " " ++ regName ra
  | .ldi ra imm => i.opcode.mnemonic ++ " " ++ regName ra ++ ", " ++ Nat.repr imm.toNat
  | .add ra rb => i.opcode.mnemonic ++ " " ++ regName ra ++ ", " ++ regName rb
  | .mul ra rb => i.opcode.mnemonic ++ " " ++ regName ra ++ ", " ++ regName rb
  | .cmp ra rb => i.opcode.mnemonic ++ " " ++ regName ra ++ ", " ++ regName rb

/-- R50, R51, R57: the bytes of an instruction, the opcode at the lowest address. -/
def encode (i : Instr) : List Byte := i.opcode.code :: i.operandBytes

/-- The bytes of a word whose bits spec/opcode_table.json numbers from bit 0 of the first byte, the bits from
`nbits` up being 0, up to the longest instruction (3 bytes, R50). -/
def tableBytes (nbits w : Nat) : List Byte :=
  let v := w % 2 ^ nbits
  [BitVec.ofNat 8 v, BitVec.ofNat 8 (v / 256), BitVec.ofNat 8 (v / 65536)]

/-- The instruction the decoder reads from a word of the opcode table. -/
def decodeTableWord (nbits w : Nat) : Option Instr :=
  match decode (tableBytes nbits w) with
  | .ok (i, _) => some i
  | .error _ => none

end Sys2Proof
end

