-- ==== Sys2Proof/Machine/Operands.lean ====
section
/-!
DEFINITION. The register file's reads and writes (10_state.md R10, R12, R13), and the check every register operand
byte passes through (30_encoding.md R53, R55).
-/

namespace Sys2Proof.Machine

/-- R10: the value `x[r]`. -/
def State.reg (s : State) (r : RegIndex) : Byte := s.x[r]

/-- R10: `x[r] <- v`. No register is hardwired (R10), register 7 included (R12). -/
def State.setReg (s : State) (r : RegIndex) (v : Byte) : State := { s with x := s.x.set r v }

/-- R7, R12: `sp`, another name for `x[7]`. -/
def State.sp (s : State) : Byte := s.reg Config.spIndex

/-- R7, R12: `x[7] <- v`. -/
def State.setSp (s : State) (v : Byte) : State := s.setReg Config.spIndex v

/-- R55: `RegIdx(b)`; `none` where the rule raises BadRegister(b). No bit of the byte is ignored (R53). -/
def regIdx (b : Byte) : Option RegIndex :=
  if h : b.toNat < 8 then some ⟨b.toNat, h⟩ else none

end Sys2Proof.Machine
end

