-- ==== Sys2Proof/Machine/Ops.lean ====
section
/-!
DEFINITION. The named operations: memory (20_memory.md R31, R32), the next pc (40_execution_engine.md R76), the output
stream (10_state.md R19), taking an exception (60_exceptions.md R122 to R125), the operand check (R74), the stack
accesses (43_stack.md), and fetching an instruction (R52, R72, R73).
-/

namespace Sys2Proof.Machine

/-! ## Memory -/

/-- The canonical form of memory: addresses strictly rising, every address in 0 to 255 (R30), and no byte equal to
what an unlisted address reads as. -/
abbrev Memory.wf (m : Memory) : Prop :=
  m.Pairwise (fun c d => c.1 < d.1) ∧ ∀ c ∈ m, c.1 < Config.memSize ∧ c.2 ≠ Config.memReset

/-- The byte listed for an address, `Config.memReset` where none is (R22). -/
def memLookup : Memory → Nat → Byte
  | [], _ => Config.memReset
  | c :: m, addr => if c.1 = addr then c.2 else memLookup m addr

/-- R31: `MemRead(addr, 1)`. An address above 255 reads as 0; it is not wrapped. -/
def memRead (m : Memory) (addr : Nat) : Byte :=
  if addr < Config.memSize then memLookup m addr else 0x00#8

/-- Insert a cell before the first cell of a higher address. -/
def memInsert : Memory → Nat → Byte → Memory
  | [], addr, v => [(addr, v)]
  | c :: m, addr, v => if addr < c.1 then (addr, v) :: c :: m else c :: memInsert m addr v

/-- `mem[addr] <- v`, keeping the canonical form: the value an unlisted address reads as removes the cell. -/
def memPut (m : Memory) (addr : Nat) (v : Byte) : Memory :=
  let others := m.filter fun c => c.1 != addr
  if v = Config.memReset then others else memInsert others addr v

/-- R32: `MemWrite(addr, 1, v)`; `none` where the write is refused (address above 255). -/
def memWrite (m : Memory) (addr : Nat) (v : Byte) : Option Memory :=
  if addr < Config.memSize then some (memPut m addr v) else none

/-- A core read: the address is 8 bits (R33), so it is always in range. -/
def State.load (s : State) (addr : Byte) : Byte := memRead s.mem addr.toNat

/-- A core write: the address is 8 bits (R33), so it is always in range and never refused. -/
def State.store (s : State) (addr v : Byte) : State := { s with mem := memPut s.mem addr.toNat v }

/-! ## The next pc -/

/-- R76: `pc <- pc +8 n`, modulo 256. -/
def State.advance (s : State) (n : Nat) : State := { s with pc := s.pc + BitVec.ofNat 8 n }

/-- R76: `pc <- target`; nothing is added to it. -/
def State.jump (s : State) (target : Byte) : State := { s with pc := target }

/-! ## Output -/

/-- R7, R19: `Emit(e)`. -/
def State.emit (s : State) (e : Event) : State := { s with out := s.out ++ [e] }

/-! ## Halting and taking an exception -/

/-- R18: enter HALTED with a cause and its information byte. -/
def State.haltWith (s : State) (cause : HaltCause) (info : Byte) : State :=
  { s with runState := .halted, haltCause := cause, haltInfo := info }

/-- R120: the three exceptions of the core. -/
inductive CoreException where
  | badOpcode (op : Byte)
  | badRegister (b : Byte)
  | unsupportedOperation
  deriving DecidableEq, Repr

/-- R121: the cause an exception records. -/
def CoreException.cause : CoreException → HaltCause
  | .badOpcode _ => .badOpcode
  | .badRegister _ => .badRegister
  | .unsupportedOperation => .unsupportedAluOp

/-- R121: the information byte an exception records. -/
def CoreException.info : CoreException → Byte
  | .badOpcode op => op
  | .badRegister b => b
  | .unsupportedOperation => 0x00#8

/-- R122: the bad-instruction diagnostic of a state: pc, the two words after the opcode, the registers. -/
def State.diagnostic (s : State) : Event :=
  .badInstruction s.pc (s.load (s.pc + 1#8)) (s.load (s.pc + 2#8)) s.x

/-- R121, R122, R123, R125: what an exception appends to the output stream. -/
def CoreException.report (e : CoreException) (s : State) : List Event :=
  match e with
  | .badOpcode _ => [s.diagnostic]
  | .badRegister _ => []
  | .unsupportedOperation => []

/-- R7, R124: `raise`. Taking an exception, the one operation for all three: the event of the exception if it has
one, then HALTED with its cause and information. No register, flag, memory word or pc changes, nothing is saved, no
mode changes and control goes nowhere. There is no return from it (R128): the host's Reset alone leaves HALTED
(Machine/HostPort.lean `hostReset`). -/
def takeException (e : CoreException) (s : State) : State :=
  { s with out := s.out ++ e.report s }.haltWith e.cause e.info

/-! ## The operand check -/

/-- R55, R74: pass a register operand byte through `RegIdx`; above 7, BadRegister is taken instead of the rest. -/
def withReg (b : Byte) (s : State) (k : RegIndex → Host.Outcome State Fault Refusal) :
    Host.Outcome State Fault Refusal :=
  match regIdx b with
  | some r => k r
  | none => .next (takeException (.badRegister b) s)

/-- R74: both register operand bytes, in operand order, before the instruction has any effect. -/
def withRegs (b1 b2 : Byte) (s : State) (k : RegIndex → RegIndex → Host.Outcome State Fault Refusal) :
    Host.Outcome State Fault Refusal :=
  withReg b1 s fun a => withReg b2 s fun b => k a b

/-! ## The stack (43_stack.md, 44_subroutine.md) -/

/-- R100, R105: the pre-decrement of the stack pointer, modulo 256. -/
def State.decSp (s : State) : State := s.setSp (s.sp - 1#8)

/-- R101, R106: the post-increment of the stack pointer, modulo 256. -/
def State.incSp (s : State) : State := s.setSp (s.sp + 1#8)

/-- R100, R105: the write at the address in the stack pointer. -/
def State.storeSp (s : State) (v : Byte) : State := s.store s.sp v

/-- R101, R106: the byte at the address in the stack pointer. -/
def State.loadSp (s : State) : Byte := s.load s.sp

/-! ## Fetch -/

/-- R52: the byte `k` places after the opcode, addresses modulo 256. -/
def State.fetchByte (s : State) (k : Nat) : Byte := s.load (s.pc + BitVec.ofNat 8 k)

/-- R50, R52: the three bytes at pc, as many as the longest instruction has. -/
def State.fetchBytes (s : State) : List Byte := [s.fetchByte 0, s.fetchByte 1, s.fetchByte 2]

/-- R71 to R73: fetch, decode, and fetch of the operand bytes that the instruction has; `none` is `Unrecognized`. -/
def State.fetchInstr (s : State) : Option Instr :=
  match decodeOpcode (s.fetchByte 0) with
  | some k => some (k.build (s.fetchByte 1) (s.fetchByte 2))
  | none => none

/-- Place bytes from an address on, addresses modulo 256. -/
def State.placeBytes (s : State) (addr : Byte) : List Byte → State
  | [] => s
  | b :: bs => (s.store addr b).placeBytes (addr + 1#8) bs

end Sys2Proof.Machine
end

