-- ==== Sys2Proof/Machine/Alu.lean ====
section
/-!
DEFINITION. The ALU block (42_alu.md R90, R94, R95) and the instructions it carries out: ADD, MUL, CMP.
-/

namespace Sys2Proof.Machine

/-- R90: the operation selector. `other` stands for the values the rule gives no operation (R94); the engine never
passes one (R75; DESIGN CHOICE, log entry 14). -/
inductive AluOp where
  | add
  | mul
  | cmp
  | other (code : Nat)
  deriving DecidableEq, Repr

/-- R95: the sum of two unsigned values, its low 8 bits kept. -/
def addBytes (a b : Byte) : Byte := BitVec.ofNat 8 (a.toNat + b.toNat)

/-- R95: the product of two unsigned values, its low 8 bits kept. -/
def mulBytes (a b : Byte) : Byte := BitVec.ofNat 8 (a.toNat * b.toNat)

/-- R90: the ALU. It reads `x[a]` and `x[b]` and writes `x[a]` (ADD, MUL) or `fl` (CMP), nothing else; `none` is
UnsupportedOperation (R94). -/
def alu (op : AluOp) (a b : RegIndex) (s : State) : Option State :=
  match op with
  | .add => some (s.setReg a (addBytes (s.reg a) (s.reg b)))
  | .mul => some (s.setReg a (mulBytes (s.reg a) (s.reg b)))
  | .cmp => some (s.setFl (compareFlags (s.reg a) (s.reg b)))
  | .other _ => none

/-- R75, R90: "delegate to ALU, then advance PC by 3", after the operand check (R74); R94, R125 for a selector the
ALU does not have. -/
def aluInstr (op : AluOp) (ra rb : Byte) (s : State) : Host.Outcome State Fault Refusal :=
  withRegs ra rb s fun a b =>
    match alu op a b s with
    | some t => .next (t.advance 3)
    | none => .next (takeException .unsupportedOperation s)

/-- R91: `x[a] <- x[a] +8 x[b] ; pc <- pc +8 3`. -/
def execAdd (ra rb : Byte) (s : State) : Host.Outcome State Fault Refusal := aluInstr .add ra rb s

/-- R92: `x[a] <- x[a] *8 x[b] ; pc <- pc +8 3`. -/
def execMul (ra rb : Byte) (s : State) : Host.Outcome State Fault Refusal := aluInstr .mul ra rb s

/-- R93: `fl` from the comparison of `x[a]` with `x[b]` ; `pc <- pc +8 3`. -/
def execCmp (ra rb : Byte) (s : State) : Host.Outcome State Fault Refusal := aluInstr .cmp ra rb s

end Sys2Proof.Machine
end

