-- ==== Sys2Proof/Machine/Branch.lean ====
section
/-!
DEFINITION. Branch instructions: JMP, JEQ and JNE (45_branch.md). Targets are absolute, from a register (R113).
-/

namespace Sys2Proof.Machine

/-- R110: `pc <- x[a]`. -/
def execJmp (ra : Byte) (s : State) : Host.Outcome State Fault Refusal :=
  withReg ra s fun a => .next (s.jump (s.reg a))

/-- R111: `if fl[0:0] = 1 then pc <- x[a] else pc <- pc +8 2`; the operand is checked either way. -/
def execJeq (ra : Byte) (s : State) : Host.Outcome State Fault Refusal :=
  withReg ra s fun a => .next (if s.flE then s.jump (s.reg a) else s.advance 2)

/-- R112: `if fl[0:0] = 0 then pc <- x[a] else pc <- pc +8 2`; the operand is checked either way. -/
def execJne (ra : Byte) (s : State) : Host.Outcome State Fault Refusal :=
  withReg ra s fun a => .next (if s.flE then s.advance 2 else s.jump (s.reg a))

end Sys2Proof.Machine
end

