-- ==== Sys2Proof/Machine/DataMovement.lean ====
section
/-!
DEFINITION. Data movement: LDI and PRN (41_data_movement.md).
-/

namespace Sys2Proof.Machine

/-- R85: `x[a] <- imm ; pc <- pc +8 3`. -/
def execLdi (ra imm : Byte) (s : State) : Host.Outcome State Fault Refusal :=
  withReg ra s fun a => .next ((s.setReg a imm).advance 3)

/-- R86: `Emit(Print(x[a])) ; pc <- pc +8 2`. -/
def execPrn (ra : Byte) (s : State) : Host.Outcome State Fault Refusal :=
  withReg ra s fun a => .next ((s.emit (.print (s.reg a))).advance 2)

end Sys2Proof.Machine
end

