-- ==== Sys2Proof/Machine/Halt.lean ====
section
/-!
DEFINITION. HLT (46_halt.md).
-/

namespace Sys2Proof.Machine

/-- R115: `halt(HLT)`: HALTED, cause HLT, info 0x00; pc keeps the address of the HLT. -/
def execHlt (s : State) : Host.Outcome State Fault Refusal :=
  .next (s.haltWith .hlt 0x00#8)

end Sys2Proof.Machine
end

