-- ==== Sys2Proof/Machine/Stack.lean ====
section
/-!
DEFINITION. Stack instructions: PUSH and POP (43_stack.md). There is no overflow and no underflow check (R12, R129).
-/

namespace Sys2Proof.Machine

/-- R100: `x[7] <- x[7] -8 1 ; MemWrite(x[7], 1, x[a]) ; pc <- pc +8 2`; `x[a]` is read after the decrement. -/
def execPush (ra : Byte) (s : State) : Host.Outcome State Fault Refusal :=
  withReg ra s fun a =>
    let t := s.decSp
    .next ((t.storeSp (t.reg a)).advance 2)

/-- R101: `x[a] <- MemRead(x[7], 1) ; x[7] <- x[7] +8 1 ; pc <- pc +8 2`; the increment reads `x[7]` after the
write of `x[a]`. -/
def execPop (ra : Byte) (s : State) : Host.Outcome State Fault Refusal :=
  withReg ra s fun a => .next ((s.setReg a s.loadSp).incSp.advance 2)

end Sys2Proof.Machine
end

