-- ==== Sys2Proof/Machine/Subroutine.lean ====
section
/-!
DEFINITION. Subroutine instructions: CALL and RET (44_subroutine.md).
-/

namespace Sys2Proof.Machine

/-- R105: `x[7] <- x[7] -8 1 ; MemWrite(x[7], 1, pc +8 2) ; pc <- x[a]`; `x[a]` is read after the decrement. -/
def execCall (ra : Byte) (s : State) : Host.Outcome State Fault Refusal :=
  withReg ra s fun a =>
    let t := s.decSp
    .next ((t.storeSp (s.pc + 2#8)).jump (t.reg a))

/-- R106: `pc <- MemRead(x[7], 1) ; x[7] <- x[7] +8 1`. -/
def execRet (s : State) : Host.Outcome State Fault Refusal :=
  .next (s.jump s.loadSp).incSp

end Sys2Proof.Machine
end

