-- ==== Sys2Proof/Machine/Step.lean ====
section
/-!
DEFINITION. The step (40_execution_engine.md R70, R71).
-/

namespace Sys2Proof.Machine

/-- R70, R71: one step while RUNNING: the fetched instruction is executed, an unrecognized opcode takes BadOpcode.
In IDLE and in HALTED the core takes no step and no state changes (R70): the same state is answered (DEDUCED, log
entry 1). -/
def step (s : State) : Host.Outcome State Fault Refusal :=
  match s.runState with
  | .idle => .next s
  | .halted => .next s
  | .running =>
    match s.fetchInstr with
    | some i => exec i s
    | none => .next (takeException (.badOpcode (s.fetchByte 0)) s)

/-- The state with the instruction of a word of spec/opcode_table.json at pc and the core RUNNING, so that the next
step executes it. It stands for the host's Load and Start (DESIGN CHOICE, log entry 22). -/
def State.withFetchWord (s : State) (nbits w : Nat) : State :=
  { s.placeBytes s.pc (tableBytes nbits w) with runState := .running }

end Sys2Proof.Machine
end

