-- ==== Sys2Proof/Machine/Alternatives.lean ====
section
/-!
DEFINITION. The step under any values of the three model switches of 00_scope.md R5 (93_implementation_defined.md U3, U4,
U6). The machine's `step` is written for their default values; with those the two are one function
(Obligations.StepWithDefaultSwitchesIsStep). How the alternatives combine is DESIGN CHOICE (log entry 20).
-/

namespace Sys2Proof.Machine

/-- U6 `mask3`: the low 3 bits of a register operand byte. -/
def mask3 (b : Byte) : Byte := b &&& 0x07#8

/-- U6 `mask3`: the instruction with every register operand byte masked; LDI's immediate is no register. -/
def maskOperands : Instr → Instr
  | .hlt => .hlt
  | .ret => .ret
  | .push ra => .push (mask3 ra)
  | .pop ra => .pop (mask3 ra)
  | .prn ra => .prn (mask3 ra)
  | .call ra => .call (mask3 ra)
  | .jmp ra => .jmp (mask3 ra)
  | .jeq ra => .jeq (mask3 ra)
  | .jne ra => .jne (mask3 ra)
  | .ldi ra imm => .ldi (mask3 ra) imm
  | .add ra rb => .add (mask3 ra) (mask3 rb)
  | .mul ra rb => .mul (mask3 ra) (mask3 rb)
  | .cmp ra rb => .cmp (mask3 ra) (mask3 rb)

/-- The instruction under the switch REG_INDEX_POLICY. -/
def underRegPolicy (p : RegIndexPolicy) (i : Instr) : Instr :=
  match p with
  | .fault => i
  | .mask3 => maskOperands i

/-- U4: whether the instruction goes on to the byte after its own bytes, or pushes that address: every fall-through
and CALL. HLT, RET and taken jumps do not. -/
def formsSuccessor (i : Instr) (s : State) : Bool :=
  match i with
  | .hlt => false
  | .ret => false
  | .push _ => true
  | .pop _ => true
  | .prn _ => true
  | .call _ => true
  | .jmp _ => false
  | .jeq _ => !s.flE
  | .jne _ => s.flE
  | .ldi _ _ => true
  | .add _ _ => true
  | .mul _ _ => true
  | .cmp _ _ => true

/-- U4: whether the instruction would form an address above 255 without the wrap: an operand address, or, once its
operands have passed the check, the address after it. -/
def formsHighAddress (i : Instr) (s : State) : Bool :=
  decide (255 < s.pc.toNat + i.opcode.arity) ||
    (i.wellFormed && formsSuccessor i s && decide (255 < s.pc.toNat + i.length))

/-- U3, R77: the described software's comparison: a pc that the instruction left unchanged while the core runs on
is advanced by 1. -/
def fallbackCompare (before after : State) : State :=
  if after.runState = .running ∧ after.pc = before.pc then after.advance 1 else after

/-- The outcome under the switch PC_FALLBACK_COMPARE. -/
def underFallback (on : Bool) (before : State) (o : Host.Outcome State Fault Refusal) :
    Host.Outcome State Fault Refusal :=
  match on, o with
  | true, .next after => .next (fallbackCompare before after)
  | true, .fault r => .fault r
  | true, .refused r => .refused r
  | false, o => o

/-- U4, TOP_OF_MEMORY = fault: the core halts before any effect, with the cause the model adds for the purpose and
R18's information 0. That it appends no event is DESIGN CHOICE (log entry 20). -/
def haltAtTopOfMemory (s : State) : State := s.haltWith .topOfMemory 0x00#8

/-- One instruction under the switches: TOP_OF_MEMORY is decided before any effect. -/
def execWith (sw : Switches) (i : Instr) (s : State) : Host.Outcome State Fault Refusal :=
  match sw.topOfMemory with
  | .wrap => underFallback sw.pcFallbackCompare s (exec i s)
  | .fault =>
    if formsHighAddress i s then .next (haltAtTopOfMemory s)
    else underFallback sw.pcFallbackCompare s (exec i s)

/-- R5: the step under any values of the model switches. -/
def stepWith (sw : Switches) (s : State) : Host.Outcome State Fault Refusal :=
  match s.runState with
  | .idle => .next s
  | .halted => .next s
  | .running =>
    match s.fetchInstr with
    | some i => execWith sw (underRegPolicy sw.regIndexPolicy i) s
    | none => .next (takeException (.badOpcode (s.fetchByte 0)) s)

end Sys2Proof.Machine
end

