-- ==== Sys2Proof/Machine/HostPort.lean ====
section
/-!
DEFINITION. The host's side of the boundary (70_reset_and_hazards.md R140 to R148, 20_memory.md R43, R44,
41_data_movement.md R87): what the host may do in each run state, by the table of R144, and how it renders the output.
The order of the port's checks and the names of its refusals are DESIGN CHOICE (log entry 24).
-/

namespace Sys2Proof.Machine

/-- R144: the host actions that change state. -/
inductive HostAction where
  | reset
  | load (words : List Byte)
  | memWrite (addr : Nat) (v : Byte)
  | start
  deriving DecidableEq, Repr

/-- R140: `Reset`, in any run state; nothing survives it. It is the only way out of HALTED (R128, R134). -/
def hostReset (_s : State) : State := State.reset

/-- R146: the writes of a load, ascending from an address. -/
def memLoad (m : Memory) (addr : Nat) : List Byte → Memory
  | [] => m
  | w :: ws => memLoad (memPut m addr w) (addr + 1) ws

/-- R146, R147: `Load(words)`: only while IDLE and at most 256 words, otherwise refused as a whole. -/
def hostLoad (words : List Byte) (s : State) : Host.Outcome State Fault Refusal :=
  match s.runState with
  | .idle =>
    if words.length ≤ Config.memSize then .next { s with mem := memLoad s.mem Config.loadBase words }
    else .refused (.loadTooLong words.length)
  | .running => .refused .loadNotIdle
  | .halted => .refused .loadNotIdle

/-- R144, R32: a single `MemWrite` through the port: allowed in IDLE (out of range it is the host-port fault
MemWriteOutOfRange and memory is unchanged), no move of the host while RUNNING, refused while HALTED. -/
def hostMemWrite (addr : Nat) (v : Byte) (s : State) : Host.Outcome State Fault Refusal :=
  match s.runState with
  | .idle =>
    match memWrite s.mem addr v with
    | some m => .next { s with mem := m }
    | none => .fault (.memWriteOutOfRange addr)
  | .running => .fault .hostAccessWhileRunning
  | .halted => .refused .memWriteHalted

/-- R145: `Start`: from IDLE to RUNNING; no effect in RUNNING or HALTED. -/
def hostStart (s : State) : State :=
  match s.runState with
  | .idle => { s with runState := .running }
  | .running => s
  | .halted => s

/-- One host action. -/
def hostAct (a : HostAction) (s : State) : Host.Outcome State Fault Refusal :=
  match a with
  | .reset => .next (hostReset s)
  | .load words => hostLoad words s
  | .memWrite addr v => hostMemWrite addr v s
  | .start => .next (hostStart s)

/-- R143: the life of a run up to its first fetch: `Reset`, one `Load`, `Start`. -/
def boot (words : List Byte) (s : State) : Host.Outcome State Fault Refusal :=
  match hostLoad words (hostReset s) with
  | .next t => .next (hostStart t)
  | .fault r => .fault r
  | .refused r => .refused r

/-! ## What the host reads: no read changes state -/

/-- R144: a read of memory, registers, pc or fl: allowed in IDLE and HALTED, no move of the host while RUNNING. -/
def hostRead (s : State) (v : Byte) : Except Fault Byte :=
  match s.runState with
  | .idle => .ok v
  | .running => .error .hostAccessWhileRunning
  | .halted => .ok v

/-- R44, R144: `MemRead` through the port; an address above 255 reads as 0 (R31). -/
def hostMemRead (addr : Nat) (s : State) : Except Fault Byte := hostRead s (memRead s.mem addr)

/-- R144: reading a register. -/
def hostReadReg (r : RegIndex) (s : State) : Except Fault Byte := hostRead s (s.reg r)

/-- R144: reading pc. -/
def hostReadPc (s : State) : Except Fault Byte := hostRead s s.pc

/-- R144: reading fl. -/
def hostReadFl (s : State) : Except Fault Byte := hostRead s s.fl

/-- R121: the numeric code of a cause on the status port. The cause that U4 has the model add uses none of R121's
codes; that it is 5 is DESIGN CHOICE (log entry 20). -/
def HaltCause.code : HaltCause → Nat
  | .none => 0
  | .hlt => 1
  | .badOpcode => 2
  | .badRegister => 3
  | .unsupportedAluOp => 4
  | .topOfMemory => 5

/-- R144, R148: the status, readable in every run state. -/
def hostStatus (s : State) : RunState × HaltCause × Byte := (s.runState, s.haltCause, s.haltInfo)

/-- R19, R144: the events after the first `n`, which the host has consumed already; in order, in every run state. -/
def hostOutput (n : Nat) (s : State) : List Event := s.out.drop n

/-! ## How the host renders the output -/

/-- R87: the decimal digits of a value, most significant first: no sign, no leading zero, no padding. -/
def decimalDigits (v : Byte) : List Nat :=
  let n := v.toNat
  if n < 10 then [n]
  else if n < 100 then [n / 10, n % 10]
  else [n / 100, n / 10 % 10, n % 10]

/-- R87: the decimal numeral of a value. -/
def decimalNumeral (v : Byte) : List Char := (decimalDigits v).map Nat.digitChar

/-- R87, R122: the text of an event: the numeral and one newline, or the diagnostic's text, whose newline and layout
the spec leaves open (U11). -/
def renderEvent : Event → List Char
  | .print v => decimalNumeral v ++ Config.newline
  | .badInstruction pc m1 m2 regs => Config.diagnosticText (pc :: m1 :: m2 :: regs.toList)

/-- R19, R87: the text of the output stream, in the order of the events. -/
def renderOutput (events : List Event) : List Char := events.flatMap renderEvent

end Sys2Proof.Machine
end

