-- ==== Sys2Proof/Safety.lean ====
section
/-!
DEFINITION. The terms in which claims speak of runs: the invariant of the machine, its transitions (a step of the core or
a move of the host), the states a run reaches, and how a run ends (70_reset_and_hazards.md R148).
-/

namespace Sys2Proof.Machine

/-- R17: the values the flags register ever takes. -/
def legalFlags (v : Byte) : Bool := v == 0x00#8 || v == 0x01#8 || v == 0x02#8 || v == 0x04#8

/-- R115, R121 to R123: what a halted state shows of the instruction that halted it, at the pc it kept: the HLT, an
unrecognized opcode, or a register operand byte above 7 of a recognized instruction. UnsupportedOperation is not
among them (R94), nor the cause that only the alternative TOP_OF_MEMORY = fault records (U4). -/
def haltEvidence (s : State) : Bool :=
  match s.haltCause with
  | .none => false
  | .hlt => s.haltInfo == 0x00#8 && s.fetchByte 0 == 0x01#8
  | .badOpcode => s.haltInfo == s.fetchByte 0 && (decodeOpcode s.haltInfo).isNone
  | .badRegister =>
    decide (7 < s.haltInfo.toNat) &&
      (match s.fetchInstr with
       | some i => i.operandBytes.contains s.haltInfo && !i.wellFormed
       | none => false)
  | .unsupportedAluOp => false
  | .topOfMemory => false

/-- The invariant of the machine. -/
structure State.Inv (s : State) : Prop where
  /-- memory is in its canonical form: 256 words, each listed at most once -/
  memWf : s.mem.wf
  /-- R16, R17 -/
  flags : legalFlags s.fl = true
  /-- R18, R121: the cause is NONE exactly while the core has not halted, and then the information is 0 -/
  notHalted : s.runState ≠ .halted → s.haltCause = .none ∧ s.haltInfo = 0x00#8
  /-- R115, R121 to R123 -/
  halted : s.runState = .halted → haltEvidence s = true

/-- One transition of the whole machine: a step of the core (R71) or a move of the host (R144). -/
inductive Transition : State → State → Prop where
  | core {s t : State} (h : step s = .next t) : Transition s t
  | host {s t : State} (a : HostAction) (h : hostAct a s = .next t) : Transition s t

/-- The states that steps and host moves reach from reset, whatever the host loads. -/
inductive Reachable : State → Prop where
  | reset : Reachable State.reset
  | next {s t : State} (h : Reachable s) (tr : Transition s t) : Reachable t

/-- R148: the end of a run. -/
def ended (s : State) : Bool := s.runState == .halted

/-- R148: a final end. -/
def endedCleanly (s : State) : Bool := ended s && s.haltCause == .hlt

/-- R148: a failure. That the cause of U4, which R148 does not list, counts as one is DESIGN CHOICE (log entry 20). -/
def endedInFailure (s : State) : Bool :=
  ended s && (s.haltCause == .badOpcode || s.haltCause == .badRegister || s.haltCause == .unsupportedAluOp ||
    s.haltCause == .topOfMemory)

/-! ## What two states share -/

/-- Every byte of memory reads as before. -/
def State.SameMemory (s t : State) : Prop := ∀ addr, memRead t.mem addr = memRead s.mem addr

/-- Every byte of memory outside one address reads as before. -/
def State.SameMemoryBut (s t : State) (a : Byte) : Prop :=
  ∀ addr, addr ≠ a.toNat → memRead t.mem addr = memRead s.mem addr

/-- Every register outside a list reads as before. -/
def State.SameRegsBut (s t : State) (rs : List RegIndex) : Prop := ∀ r, r ∉ rs → t.reg r = s.reg r

/-- The run state, halt cause and halt information are as before (R18). -/
def State.SameStatus (s t : State) : Prop :=
  t.runState = s.runState ∧ t.haltCause = s.haltCause ∧ t.haltInfo = s.haltInfo

/-- R124: what a fault leaves as it was: registers, pc, flags and memory. -/
def State.SameProgramState (s t : State) : Prop :=
  s.SameRegsBut t [] ∧ t.pc = s.pc ∧ t.fl = s.fl ∧ s.SameMemory t

/-- R18: HALTED with a cause and its information. -/
def State.HaltedWith (t : State) (cause : HaltCause) (info : Byte) : Prop :=
  t.runState = .halted ∧ t.haltCause = cause ∧ t.haltInfo = info

/-- R52: the byte `k` places after the opcode, at the address pc + k modulo 256. -/
def State.codeByte (s : State) (k : Nat) : Byte := memRead s.mem ((s.pc.toNat + k) % 256)

/-- U4: an instruction that forms an address above 255 without the wrap: an operand address (the last one is
pc + the number of operand bytes), or the address after it, which a fall-through goes to and CALL pushes. HLT, RET and
taken jumps form no such address, nor does an instruction that the operand check stops before (log entry 20). -/
def State.PassesTop (sw : Switches) (s : State) (i : Instr) : Prop :=
  255 < s.pc.toNat + i.operandBytes.length ∨
    255 < s.pc.toNat + i.operandBytes.length + 1 ∧ (i.wellFormed = true ∨ sw.regIndexPolicy = .mask3) ∧
      i ≠ .hlt ∧ i ≠ .ret ∧
      ∀ ra, i ≠ .jmp ra ∧ (i = .jeq ra → s.fl.toNat % 2 = 0) ∧ (i = .jne ra → s.fl.toNat % 2 = 1)

/-! ## Which registers an instruction reads and writes (R11) -/

/-- R51: the register operand bytes, in operand order. -/
def registerOperands : Instr → List Byte
  | .hlt => []
  | .ret => []
  | .push ra => [ra]
  | .pop ra => [ra]
  | .prn ra => [ra]
  | .call ra => [ra]
  | .jmp ra => [ra]
  | .jeq ra => [ra]
  | .jne ra => [ra]
  | .ldi ra _ => [ra]
  | .add ra rb => [ra, rb]
  | .mul ra rb => [ra, rb]
  | .cmp ra rb => [ra, rb]

/-- R11: the registers an instruction reads in a state, by its "reads" column; an instruction that BadRegister stops
reads none (R123). -/
def readsReg (i : Instr) (s : State) (r : RegIndex) : Bool :=
  let names (b : Byte) : Bool := b.toNat == r.val
  i.wellFormed &&
    match i with
    | .hlt => false
    | .ret => r == 7
    | .push ra => r == 7 || names ra
    | .pop _ => r == 7
    | .prn ra => names ra
    | .call ra => r == 7 || names ra
    | .jmp ra => names ra
    | .jeq ra => s.flE && names ra
    | .jne ra => !s.flE && names ra
    | .ldi _ _ => false
    | .add ra rb => names ra || names rb
    | .mul ra rb => names ra || names rb
    | .cmp ra rb => names ra || names rb

/-- R11: the registers an instruction writes, by its "writes" column; one that BadRegister stops writes none. -/
def writesReg (i : Instr) (r : RegIndex) : Bool :=
  let names (b : Byte) : Bool := b.toNat == r.val
  i.wellFormed &&
    match i with
    | .hlt => false
    | .ret => r == 7
    | .push _ => r == 7
    | .pop ra => r == 7 || names ra
    | .prn _ => false
    | .call _ => r == 7
    | .jmp _ => false
    | .jeq _ => false
    | .jne _ => false
    | .ldi ra _ => names ra
    | .add ra _ => names ra
    | .mul ra _ => names ra
    | .cmp _ _ => false

end Sys2Proof.Machine
end

