-- ==== Sys2Proof/Certificates/Slice0/Obligations.lean ====
section
/-!
DEFINITION. The statements for the provers. The docstring of each names the rules of spec/ it formalises, and the
decisions D<n> of 92_eei_decisions.md, the spec's own choices, that a clause rests on.
-/

open Sys2Proof Sys2Proof.Machine

/-! ## Reset, memory and registers -/

/-- R22, R140: every field of the reset state. `pc` and `fl` are D7, the run state and halt fields D10, `out` D11:
decisions the spec marks as its own. -/
def Obligations.ResetMatchesStateTable : Prop :=
  (∀ addr, memRead State.reset.mem addr = 0x00#8) ∧
    (∀ r : RegIndex, r ≠ 7 → State.reset.reg r = 0x00#8) ∧ State.reset.reg 7 = 0xF4#8 ∧
    State.reset.pc = 0x00#8 ∧ State.reset.fl = 0x00#8 ∧ State.reset.runState = .idle ∧
    State.reset.haltCause = .none ∧ State.reset.haltInfo = 0x00#8 ∧ State.reset.out = []

/-- R30, R31: in 0 to 255 a read returns the byte stored there, and outside that range it returns 0, which is not a
wrapped read. That memory is a list in canonical form (the premise), and that an address it does not list holds R22's
reset contents 0x00, is the model's own form (DEDUCED, log entry 2). -/
def Obligations.MemReadContract : Prop :=
  ∀ (m : Memory) (addr : Nat), m.wf →
    (addr ≤ 255 → ∀ v, (addr, v) ∈ m → memRead m addr = v) ∧
      (addr ≤ 255 → (∀ v, (addr, v) ∉ m) → memRead m addr = 0x00#8) ∧
      (255 < addr → memRead m addr = 0x00#8)

/-- R32, R40: a write in range changes that address to the value and no other address; out of range it is refused
(the refusal is D5, the spec's own decision). -/
def Obligations.MemWriteContract : Prop :=
  ∀ (m : Memory) (addr : Nat) (v : Byte),
    (addr ≤ 255 → ∃ m', memWrite m addr v = some m' ∧ memRead m' addr = v ∧
        ∀ b, b ≠ addr → memRead m' b = memRead m b) ∧
      (255 < addr → memWrite m addr v = none)

/-- The canonical form is one: two memories in it whose 256 words agree (R30) are equal data. The form is the
model's own (log entry 2). -/
def Obligations.CanonicalMemoriesWithEqualReadsAreEqual : Prop :=
  ∀ m m' : Memory, m.wf → m'.wf → (∀ addr, addr ≤ 255 → memRead m addr = memRead m' addr) → m = m'

/-- R10, R12, R13: a register holds the value last written to it, register 7 as any other (D19), and a write changes
no other register. -/
def Obligations.RegisterReadAfterWrite : Prop :=
  ∀ (s : State) (r r' : RegIndex) (v : Byte),
    (s.setReg r v).reg r = v ∧ (r' ≠ r → (s.setReg r v).reg r' = s.reg r') ∧ s.sp = s.reg 7

/-- R53, R55: a register operand byte of 0 to 7 names the register of that index; 8 to 255 name none (D6). -/
def Obligations.RegisterOperandByteNamesItsIndex : Prop :=
  ∀ b : Byte, (b.toNat ≤ 7 → ∃ r : RegIndex, regIdx b = some r ∧ r.val = b.toNat) ∧
    (7 < b.toNat → regIdx b = none)

/-! ## Decoding -/

/-- R56, R57: the decoder's opcode map, and that the other 243 opcode values are Unrecognized. -/
def Obligations.OpcodeMapIsTheTable : Prop :=
  decodeOpcode 0x01#8 = some .hlt ∧ decodeOpcode 0x11#8 = some .ret ∧ decodeOpcode 0x45#8 = some .push ∧
    decodeOpcode 0x46#8 = some .pop ∧ decodeOpcode 0x47#8 = some .prn ∧ decodeOpcode 0x50#8 = some .call ∧
    decodeOpcode 0x54#8 = some .jmp ∧ decodeOpcode 0x55#8 = some .jeq ∧ decodeOpcode 0x56#8 = some .jne ∧
    decodeOpcode 0x82#8 = some .ldi ∧ decodeOpcode 0xA0#8 = some .add ∧ decodeOpcode 0xA2#8 = some .mul ∧
    decodeOpcode 0xA7#8 = some .cmp ∧
    (∀ op : Byte, op ∉ [0x01#8, 0x11#8, 0x45#8, 0x46#8, 0x47#8, 0x50#8, 0x54#8, 0x55#8, 0x56#8, 0x82#8, 0xA0#8,
        0xA2#8, 0xA7#8] → decodeOpcode op = none)

/-- R51, R57: words written out from the formats decode to the instructions they stand for, with the rest of the
bytes left. -/
def Obligations.WrittenWordsDecode : Prop :=
  decode [0b00000001#8] = .ok (.hlt, []) ∧
    decode [0b00010001#8, 0xFF#8] = .ok (.ret, [0xFF#8]) ∧
    decode [0b01000101#8, 0b00000010#8] = .ok (.push 0x02#8, []) ∧
    decode [0b01000111#8, 0b00000111#8, 0x01#8] = .ok (.prn 0x07#8, [0x01#8]) ∧
    decode [0b01010110#8, 0b00000011#8] = .ok (.jne 0x03#8, []) ∧
    decode [0b10000010#8, 0b00000000#8, 0b00001000#8] = .ok (.ldi 0x00#8 0x08#8, []) ∧
    decode [0b10100010#8, 0b00000000#8, 0b00000001#8] = .ok (.mul 0x00#8 0x01#8, []) ∧
    decode [0b10100001#8, 0b00000000#8, 0b00000001#8] = .error (.unrecognized 0xA1#8)

/-- R50, R51, R57, R60: bytes decode to an instruction exactly when they are its encoding and what follows it, with
every operand byte at every value (above 7 too: R56 decodes by the opcode byte alone, log entry 21). No byte is dropped
and no two instructions share an encoding. -/
def Obligations.DecodeInvertsEncode : Prop :=
  ∀ (bytes rest : List Byte) (i : Instr), decode bytes = .ok (i, rest) ↔ bytes = encode i ++ rest

/-- The word of an instruction as spec/opcode_table.json numbers its bits (bit 0 the least significant bit of the
first byte, R51's bytes in ascending order) is that instruction to the decoder, and the state with that word placed
runs it as its next step. The placing stands for the host's Load and Start (log entry 22). -/
def Obligations.TableWordRunsAsNextInstruction : Prop :=
  ∀ (i : Instr) (s : State),
    decodeTableWord (8 * i.length) ((encode i).foldr (fun b n => b.toNat + 256 * n) 0) = some i ∧
      step (s.withFetchWord (8 * i.length) ((encode i).foldr (fun b n => b.toNat + 256 * n) 0)) =
        exec i (s.withFetchWord (8 * i.length) ((encode i).foldr (fun b n => b.toNat + 256 * n) 0))

/-! ## The step -/

/-- R71 to R73, R75: when the bytes at pc decode to an instruction, a RUNNING core's step is that instruction's
execution in that state; the step adds nothing around it (R76). The addresses are modulo 256 (D3, the spec's own
decision). -/
def Obligations.StepRunsDecodedInstruction : Prop :=
  ∀ (s : State) (i : Instr) (rest : List Byte), s.runState = .running →
    decode [s.codeByte 0, s.codeByte 1, s.codeByte 2] = .ok (i, rest) → step s = exec i s

/-- R50 to R52, R71: a RUNNING core whose memory holds an instruction's bytes from pc on (modulo 256, D3) executes
that instruction. -/
def Obligations.StepRunsEncodedInstruction : Prop :=
  ∀ (s : State) (i : Instr), s.runState = .running →
    (∀ (k : Nat) (h : k < (encode i).length), s.codeByte k = (encode i)[k]) → step s = exec i s

/-- R58, R122: an unrecognized opcode appends the diagnostic with the ten values, halts with BAD_OPCODE and the
opcode byte, and changes nothing else. That the two words are those after the opcode is D12, their addresses modulo
256 D3, the spec's own decisions. -/
def Obligations.UnrecognizedOpcodeReportsAndHalts : Prop :=
  ∀ s : State, s.runState = .running →
    s.codeByte 0 ∉ [0x01#8, 0x11#8, 0x45#8, 0x46#8, 0x47#8, 0x50#8, 0x54#8, 0x55#8, 0x56#8, 0x82#8, 0xA0#8,
        0xA2#8, 0xA7#8] →
    ∃ t, step s = .next t ∧ t.HaltedWith .badOpcode (s.codeByte 0) ∧ s.SameProgramState t ∧
      t.out = s.out ++ [.badInstruction s.pc (s.codeByte 1) (s.codeByte 2)
        #v[s.reg 0, s.reg 1, s.reg 2, s.reg 3, s.reg 4, s.reg 5, s.reg 6, s.reg 7]]

/-- R70: in IDLE and in HALTED the core takes no step, no state changes (IDLE is D10; that the model's step then
answers the same state is log entry 1). -/
def Obligations.NoStepOutsideRunning : Prop :=
  ∀ s : State, s.runState ≠ .running → step s = .next s

/-- R162: the core is never stuck: a step of a RUNNING core answers a next state, no fault and no refusal. That a step
in IDLE and in HALTED answers one too is the model's choice (DEDUCED, log entry 1). -/
def Obligations.StepAlwaysAnswersNext : Prop :=
  ∀ s : State, ∃ t, step s = .next t

/-! ## The instructions: result, next pc and frame -/

/-- R85: LDI. The sum in pc is modulo 256 (D3). -/
def Obligations.LdiLoadsImmediate : Prop :=
  ∀ (s : State) (ra imm : Byte) (a : RegIndex), ra.toNat = a.val →
    ∃ t, exec (.ldi ra imm) s = .next t ∧ t.reg a = imm ∧ s.SameRegsBut t [a] ∧
      t.pc.toNat = (s.pc.toNat + 3) % 256 ∧ t.fl = s.fl ∧ s.SameMemory t ∧ t.out = s.out ∧ s.SameStatus t

/-- R86: PRN. The sum in pc is modulo 256 (D3), the form of the event D11. -/
def Obligations.PrnEmitsRegister : Prop :=
  ∀ (s : State) (ra : Byte) (a : RegIndex), ra.toNat = a.val →
    ∃ t, exec (.prn ra) s = .next t ∧ t.out = s.out ++ [.print (s.reg a)] ∧ s.SameRegsBut t [] ∧
      t.pc.toNat = (s.pc.toNat + 2) % 256 ∧ t.fl = s.fl ∧ s.SameMemory t ∧ s.SameStatus t

/-- R91, R95: ADD. The sum modulo 256 is D1, pc modulo 256 is D3. -/
def Obligations.AddKeepsLowByteOfSum : Prop :=
  ∀ (s : State) (ra rb : Byte) (a b : RegIndex), ra.toNat = a.val → rb.toNat = b.val →
    ∃ t, exec (.add ra rb) s = .next t ∧ (t.reg a).toNat = ((s.reg a).toNat + (s.reg b).toNat) % 256 ∧
      s.SameRegsBut t [a] ∧ t.pc.toNat = (s.pc.toNat + 3) % 256 ∧ t.fl = s.fl ∧ s.SameMemory t ∧
      t.out = s.out ∧ s.SameStatus t

/-- R92, R95: MUL. The product modulo 256 is D1, pc modulo 256 is D3. -/
def Obligations.MulKeepsLowByteOfProduct : Prop :=
  ∀ (s : State) (ra rb : Byte) (a b : RegIndex), ra.toNat = a.val → rb.toNat = b.val →
    ∃ t, exec (.mul ra rb) s = .next t ∧ (t.reg a).toNat = ((s.reg a).toNat * (s.reg b).toNat) % 256 ∧
      s.SameRegsBut t [a] ∧ t.pc.toNat = (s.pc.toNat + 3) % 256 ∧ t.fl = s.fl ∧ s.SameMemory t ∧
      t.out = s.out ∧ s.SameStatus t

/-- R93: CMP, unsigned (the spec derives that from R10): exactly one of E, G, L, all other bits 0, whatever `fl` held.
pc modulo 256 is D3. -/
def Obligations.CmpSetsExactlyOneFlag : Prop :=
  ∀ (s : State) (ra rb : Byte) (a b : RegIndex), ra.toNat = a.val → rb.toNat = b.val →
    ∃ t, exec (.cmp ra rb) s = .next t ∧
      ((s.reg a).toNat = (s.reg b).toNat → t.fl = 0x01#8) ∧
      ((s.reg b).toNat < (s.reg a).toNat → t.fl = 0x02#8) ∧
      ((s.reg a).toNat < (s.reg b).toNat → t.fl = 0x04#8) ∧
      s.SameRegsBut t [] ∧ t.pc.toNat = (s.pc.toNat + 3) % 256 ∧ s.SameMemory t ∧ t.out = s.out ∧ s.SameStatus t

/-- R100: PUSH. It stores one byte at the decremented stack pointer; PUSH R7 stores the decremented stack pointer
(D16); the decrement is modulo 256 (D2), pc modulo 256 (D3). -/
def Obligations.PushStoresBelowStackPointer : Prop :=
  ∀ (s : State) (ra : Byte) (a : RegIndex), ra.toNat = a.val →
    ∃ t, exec (.push ra) s = .next t ∧ t.sp.toNat = (s.sp.toNat + 255) % 256 ∧ t.sp = s.decSp.sp ∧
      (a ≠ 7 → memRead t.mem s.decSp.sp.toNat = s.reg a) ∧ (a = 7 → memRead t.mem s.decSp.sp.toNat = t.sp) ∧
      s.SameMemoryBut t s.decSp.sp ∧ s.SameRegsBut t [7] ∧ t.pc.toNat = (s.pc.toNat + 2) % 256 ∧ t.fl = s.fl ∧
      t.out = s.out ∧ s.SameStatus t

/-- R101: POP. It reads the byte at the stack pointer; POP R7 increments the byte popped (D16); the increment is
modulo 256 (D2), pc modulo 256 (D3). The memory byte stays. -/
def Obligations.PopReadsAtStackPointer : Prop :=
  ∀ (s : State) (ra : Byte) (a : RegIndex), ra.toNat = a.val →
    ∃ t, exec (.pop ra) s = .next t ∧
      (a ≠ 7 → t.reg a = memRead s.mem s.sp.toNat ∧ t.sp.toNat = (s.sp.toNat + 1) % 256) ∧
      (a = 7 → t.sp.toNat = ((memRead s.mem s.sp.toNat).toNat + 1) % 256) ∧
      s.SameRegsBut t [a, 7] ∧ s.SameMemory t ∧ t.pc.toNat = (s.pc.toNat + 2) % 256 ∧ t.fl = s.fl ∧
      t.out = s.out ∧ s.SameStatus t

/-- R105: CALL. It stores pc + 2 at the decremented stack pointer and jumps to the register, for CALL R7 to the
decremented stack pointer (D16); sums are modulo 256 (D2, D3). -/
def Obligations.CallPushesReturnAddress : Prop :=
  ∀ (s : State) (ra : Byte) (a : RegIndex), ra.toNat = a.val →
    ∃ t, exec (.call ra) s = .next t ∧ t.sp.toNat = (s.sp.toNat + 255) % 256 ∧ t.sp = s.decSp.sp ∧
      (memRead t.mem s.decSp.sp.toNat).toNat = (s.pc.toNat + 2) % 256 ∧ s.SameMemoryBut t s.decSp.sp ∧
      (a ≠ 7 → t.pc = s.reg a) ∧ (a = 7 → t.pc = t.sp) ∧ s.SameRegsBut t [7] ∧ t.fl = s.fl ∧
      t.out = s.out ∧ s.SameStatus t

/-- R106: RET. pc is the byte at the stack pointer, nothing is added to it; the increment is modulo 256 (D2). -/
def Obligations.RetPopsProgramCounter : Prop :=
  ∀ s : State, ∃ t, exec .ret s = .next t ∧ t.pc = memRead s.mem s.sp.toNat ∧
    t.sp.toNat = (s.sp.toNat + 1) % 256 ∧ s.SameRegsBut t [7] ∧ s.SameMemory t ∧ t.fl = s.fl ∧
    t.out = s.out ∧ s.SameStatus t

/-- R110: JMP. pc is the register, also where that is the JMP's own address (D8). -/
def Obligations.JmpSetsProgramCounter : Prop :=
  ∀ (s : State) (ra : Byte) (a : RegIndex), ra.toNat = a.val →
    ∃ t, exec (.jmp ra) s = .next t ∧ t.pc = s.reg a ∧ s.SameRegsBut t [] ∧ s.SameMemory t ∧ t.fl = s.fl ∧
      t.out = s.out ∧ s.SameStatus t

/-- R111: JEQ. It looks at bit 0 of `fl` only; the fall-through is modulo 256 (D3), a taken jump adds nothing (D8). -/
def Obligations.JeqJumpsWhenEqualBitSet : Prop :=
  ∀ (s : State) (ra : Byte) (a : RegIndex), ra.toNat = a.val →
    ∃ t, exec (.jeq ra) s = .next t ∧ (s.fl.toNat % 2 = 1 → t.pc = s.reg a) ∧
      (s.fl.toNat % 2 = 0 → t.pc.toNat = (s.pc.toNat + 2) % 256) ∧ s.SameRegsBut t [] ∧ s.SameMemory t ∧
      t.fl = s.fl ∧ t.out = s.out ∧ s.SameStatus t

/-- R112: JNE. It looks at bit 0 of `fl` only; the fall-through is modulo 256 (D3), a taken jump adds nothing (D8). -/
def Obligations.JneJumpsWhenEqualBitClear : Prop :=
  ∀ (s : State) (ra : Byte) (a : RegIndex), ra.toNat = a.val →
    ∃ t, exec (.jne ra) s = .next t ∧ (s.fl.toNat % 2 = 0 → t.pc = s.reg a) ∧
      (s.fl.toNat % 2 = 1 → t.pc.toNat = (s.pc.toNat + 2) % 256) ∧ s.SameRegsBut t [] ∧ s.SameMemory t ∧
      t.fl = s.fl ∧ t.out = s.out ∧ s.SameStatus t

/-- R115: HLT: HALTED, cause HLT, information 0, nothing emitted, pc kept (D9). -/
def Obligations.HltHaltsCleanly : Prop :=
  ∀ s : State, ∃ t, exec .hlt s = .next t ∧ t.HaltedWith .hlt 0x00#8 ∧ s.SameProgramState t ∧ t.out = s.out

/-! ## Faults -/

/-- R55, R74, R123, R126: an instruction with a register operand byte above 7 takes BadRegister with the first such
byte in operand order, JEQ and JNE whether or not the jump would be taken, and changes nothing else. BadRegister is
D6, its having no event D12, the spec's own decisions. -/
def Obligations.BadRegisterOperandHaltsFirst : Prop :=
  ∀ (i : Instr) (s : State) (b : Byte), (registerOperands i).find? (fun c => decide (7 < c.toNat)) = some b →
    ∃ t, exec i s = .next t ∧ t.HaltedWith .badRegister b ∧ s.SameProgramState t ∧ t.out = s.out

/-- R94, R125: a selector that is not ADD, MUL or CMP makes the ALU raise UnsupportedOperation, which halts the core
and changes nothing else. The selector's other values are the model's (D14, log entry 14). -/
def Obligations.OtherAluSelectorIsUnsupported : Prop :=
  ∀ (s : State) (code : Nat) (ra rb : Byte), ra.toNat ≤ 7 → rb.toNat ≤ 7 →
    ∃ t, aluInstr (.other code) ra rb s = .next t ∧ t.HaltedWith .unsupportedAluOp 0x00#8 ∧
      s.SameProgramState t ∧ t.out = s.out

/-- R90: the ALU touches nothing but `x[a]` (ADD, MUL) or `fl` (CMP), and it has exactly these three operations. -/
def Obligations.AluTouchesOnlyItsResult : Prop :=
  ∀ (op : AluOp) (a b : RegIndex) (s t : State), alu op a b s = some t →
    t.pc = s.pc ∧ s.SameMemory t ∧ t.out = s.out ∧ s.SameStatus t ∧
      ((op = .add ∨ op = .mul) ∧ s.SameRegsBut t [a] ∧ t.fl = s.fl ∨ op = .cmp ∧ s.SameRegsBut t [])

/-- R124: a step that raises any of the three faults changes no register, no flag, no memory word and not pc; it
enters HALTED, and one event is appended for BAD_OPCODE and none otherwise. That the event is the diagnostic is R122
and D12 (log entry 11), that pc is kept D9, BadRegister D6 (log entry 8): decisions the spec marks as its own. `step`
never raises UNSUPPORTED_ALU_OP; its effect is stated by OtherAluSelectorIsUnsupported. The premise is that the core has
no cause yet, which the invariant gives a RUNNING core. -/
def Obligations.FaultsArePrecise : Prop :=
  ∀ s t : State, s.runState = .running → s.haltCause = .none → step s = .next t →
    (t.haltCause = .badOpcode ∨ t.haltCause = .badRegister ∨ t.haltCause = .unsupportedAluOp) →
      s.SameProgramState t ∧ t.runState = .halted ∧
        (t.haltCause = .badOpcode → t.out = s.out ++ [s.diagnostic]) ∧ (t.haltCause ≠ .badOpcode → t.out = s.out)

/-- R70, R79, R121: a step of a RUNNING core leaves it running with no cause, or halts it, with the evidence of the
HLT, the unrecognized opcode or the bad operand at the pc it keeps; UnsupportedOperation never happens (R94). That
the core keeps pc is D9. -/
def Obligations.StepHaltsOnlyByHltOrFault : Prop :=
  ∀ s t : State, s.runState = .running → s.haltCause = .none → step s = .next t →
    (t.runState = .running ∧ t.haltCause = .none) ∨
      (t.HaltedWith .hlt 0x00#8 ∧ s.codeByte 0 = 0x01#8 ∧ t.pc = s.pc) ∨
      (t.HaltedWith .badOpcode (s.codeByte 0) ∧ decodeOpcode (s.codeByte 0) = none ∧ t.pc = s.pc) ∨
      (t.runState = .halted ∧ t.haltCause = .badRegister ∧ 7 < t.haltInfo.toNat ∧
        (t.haltInfo = s.codeByte 1 ∨ t.haltInfo = s.codeByte 2) ∧ t.pc = s.pc)

/-- R128, R134: nothing but the host's Reset changes a HALTED core, all of it stays readable, and Reset discards all
of it. That a step of a HALTED core is modelled as answering the same state is log entry 1. -/
def Obligations.OnlyResetLeavesHalted : Prop :=
  ∀ s : State, s.runState = .halted →
    step s = .next s ∧ (∀ (a : HostAction) (t : State), a ≠ .reset → hostAct a s = .next t → t = s) ∧
      hostAct .reset s = .next State.reset

/-- R44, R128, R144: in IDLE and HALTED the host reads memory (0 outside 0 to 255, R31), registers, pc and fl; the
status and the output it reads in every run state, the events in their order. That a read while RUNNING, which the
host must not make, is a fault of the port is the model's choice (log entry 18). -/
def Obligations.HostReadsByRunState : Prop :=
  (∀ (s : State) (addr : Nat) (r : RegIndex), s.runState ≠ .running →
      hostMemRead addr s = .ok (memRead s.mem addr) ∧ (255 < addr → hostMemRead addr s = .ok 0x00#8) ∧
        hostReadReg r s = .ok (s.reg r) ∧ hostReadPc s = .ok s.pc ∧ hostReadFl s = .ok s.fl) ∧
    (∀ (s : State) (addr : Nat) (r : RegIndex), s.runState = .running →
      hostMemRead addr s = .error .hostAccessWhileRunning ∧ hostReadReg r s = .error .hostAccessWhileRunning ∧
        hostReadPc s = .error .hostAccessWhileRunning ∧ hostReadFl s = .error .hostAccessWhileRunning) ∧
    (∀ (s : State) (n : Nat), hostStatus s = (s.runState, s.haltCause, s.haltInfo) ∧
      s.out = s.out.take n ++ hostOutput n s)

/-! ## Rules over all instructions -/

/-- R17: no instruction but CMP writes `fl`, and after a CMP whose operands pass the check `fl` is 0x01, 0x02 or
0x04. -/
def Obligations.OnlyCmpWritesFlags : Prop :=
  ∀ (i : Instr) (s t : State), exec i s = .next t →
    t.fl = s.fl ∨ (∃ ra rb, i = .cmp ra rb ∧ (t.fl = 0x01#8 ∨ t.fl = 0x02#8 ∨ t.fl = 0x04#8))

/-- R20, R34: only PUSH and CALL write memory, one byte, at the decremented stack pointer. -/
def Obligations.OnlyPushAndCallWriteMemory : Prop :=
  ∀ (i : Instr) (s t : State), exec i s = .next t →
    s.SameMemory t ∨ ((∃ ra, i = .push ra ∨ i = .call ra) ∧ s.SameMemoryBut t s.decSp.sp)

/-- R19, R86, R122: a step appends at most one event and removes none; the event is PRN's value or the diagnostic of
an unrecognized opcode. The form of the stream is D11. -/
def Obligations.OutputOnlyGrowsByPrnOrDiagnostic : Prop :=
  ∀ s t : State, step s = .next t →
    t.out = s.out ∨ (∃ ra a, s.fetchInstr = some (.prn ra) ∧ ra.toNat = a.val ∧ t.out = s.out ++ [.print (s.reg a)]) ∨
      (s.fetchInstr = none ∧ t.out = s.out ++ [s.diagnostic])

/-- R11: an instruction changes only the registers of its "writes" column. -/
def Obligations.OnlyListedRegistersAreWritten : Prop :=
  ∀ (i : Instr) (s t : State) (r : RegIndex), exec i s = .next t → writesReg i r = false → t.reg r = s.reg r

/-- R11: a register outside an instruction's "reads" column has no influence on it: with any other value in that
register the instruction does the same, and the register keeps its value unless the instruction writes it. -/
def Obligations.UnreadRegisterHasNoInfluence : Prop :=
  ∀ (i : Instr) (s : State) (r : RegIndex) (v : Byte), readsReg i s r = false →
    ∃ t, exec i s = .next t ∧ exec i (s.setReg r v) = .next (if writesReg i r then t else t.setReg r v)

/-- R102: PUSH a then POP a restores `x[a]` and the stack pointer, for every register (for R7 the spec derives it)
and every starting stack pointer, across the wrap too (D2), and leaves the pushed byte in memory. -/
def Obligations.PushThenPopRestores : Prop :=
  ∀ (s : State) (ra : Byte) (a : RegIndex), ra.toNat = a.val →
    ∃ t u, exec (.push ra) s = .next t ∧ exec (.pop ra) t = .next u ∧ u.reg a = s.reg a ∧ u.sp = s.sp ∧
      (a ≠ 7 → memRead u.mem ((s.sp.toNat + 255) % 256) = s.reg a)

/-- R102: the stack is last in, first out: PUSH a, PUSH b, POP c, POP d gives `x[c]` the old `x[b]` and `x[d]` the old
`x[a]`, where none of the four is R7 and c is not d. -/
def Obligations.StackIsLastInFirstOut : Prop :=
  ∀ (s : State) (ra rb rc rd : Byte) (a b c d : RegIndex), ra.toNat = a.val → rb.toNat = b.val →
    rc.toNat = c.val → rd.toNat = d.val → a ≠ 7 → b ≠ 7 → c ≠ 7 → d ≠ 7 → c ≠ d →
    ∃ s1 s2 s3 s4, exec (.push ra) s = .next s1 ∧ exec (.push rb) s1 = .next s2 ∧ exec (.pop rc) s2 = .next s3 ∧
      exec (.pop rd) s3 = .next s4 ∧ s4.reg c = s.reg b ∧ s4.reg d = s.reg a ∧ s4.sp = s.sp

/-- R107: a RET in any state that has the stack pointer, and the byte it points at, as the CALL left them resumes at
the CALL's address plus 2 (modulo 256, D3) and restores the stack pointer. The spec marks it as derived from R105 and
R106. -/
def Obligations.RetResumesAfterCall : Prop :=
  ∀ (s t v : State) (ra : Byte) (a : RegIndex), ra.toNat = a.val → exec (.call ra) s = .next t → v.sp = t.sp →
    memRead v.mem v.sp.toNat = memRead t.mem t.sp.toNat →
    ∃ u, exec .ret v = .next u ∧ u.pc.toNat = (s.pc.toNat + 2) % 256 ∧ u.sp = s.sp

/-- R16: the layout of `fl`. Bits 7:3 read as 0 in every state that a run reaches and no instruction sets them; CMP sets
bit 0 exactly when the operands are equal, bit 1 exactly when the first is greater, bit 2 exactly when it is less; no
other instruction writes `fl`; JEQ and JNE read bit 0, and no other bit. -/
def Obligations.FlagsRegisterLayout : Prop :=
  (∀ s, Reachable s → ∀ k, 3 ≤ k → s.fl.getLsbD k = false) ∧
    (∀ (i : Instr) (s t : State) (k : Nat), exec i s = .next t → 3 ≤ k → s.fl.getLsbD k = false →
      t.fl.getLsbD k = false) ∧
    (∀ (s : State) (ra rb : Byte) (a b : RegIndex), ra.toNat = a.val → rb.toNat = b.val →
      ∃ t, exec (.cmp ra rb) s = .next t ∧ (t.fl.getLsbD 0 = true ↔ (s.reg a).toNat = (s.reg b).toNat) ∧
        (t.fl.getLsbD 1 = true ↔ (s.reg b).toNat < (s.reg a).toNat) ∧
        (t.fl.getLsbD 2 = true ↔ (s.reg a).toNat < (s.reg b).toNat)) ∧
    (∀ (i : Instr) (s t : State), exec i s = .next t → t.fl ≠ s.fl → ∃ ra rb, i = .cmp ra rb) ∧
    (∀ (s : State) (ra v : Byte) (a : RegIndex), ra.toNat = a.val → s.fl.getLsbD 0 = v.getLsbD 0 →
      ∃ t u, exec (.jeq ra) s = .next t ∧ exec (.jne ra) s = .next u ∧
        (s.fl.getLsbD 0 = true → t.pc = s.reg a) ∧ (s.fl.getLsbD 0 = false → u.pc = s.reg a) ∧
        exec (.jeq ra) (s.setFl v) = .next (t.setFl v) ∧ exec (.jne ra) (s.setFl v) = .next (u.setFl v))

/-- R54: LDI's immediate is operand byte 2 as it stands, an unsigned value, not sign-extended, scaled or shifted; every
operand byte of every other instruction is a register operand; JMP, CALL and a taken JEQ or JNE take the target from the
register. The premise on pc keeps the operand bytes below the top of memory, so no wrap is claimed here, and for CALL R7
either reading of the register, before or after the decrement, is allowed here: those points are D3 and D16, stated by
StepRunsEncodedInstruction and CallPushesReturnAddress. -/
def Obligations.OnlyLdiHasAnImmediate : Prop :=
  (∀ (s : State) (a : RegIndex), s.runState = .running → s.pc.toNat + 2 ≤ 255 →
      memRead s.mem s.pc.toNat = 0x82#8 → (memRead s.mem (s.pc.toNat + 1)).toNat = a.val →
      ∃ t, step s = .next t ∧ (t.reg a).toNat = (memRead s.mem (s.pc.toNat + 2)).toNat) ∧
    (∀ i : Instr, (∀ ra imm, i ≠ .ldi ra imm) → registerOperands i = i.operandBytes) ∧
    (∀ (s : State) (ra : Byte) (a : RegIndex), ra.toNat = a.val →
      (∃ t, exec (.jmp ra) s = .next t ∧ t.pc = s.reg a) ∧
        (∃ t, exec (.call ra) s = .next t ∧ (a ≠ 7 → t.pc = s.reg a) ∧ (a = 7 → t.pc = s.sp ∨ t.pc = t.sp)) ∧
        (s.fl.getLsbD 0 = true → ∃ t, exec (.jeq ra) s = .next t ∧ t.pc = s.reg a) ∧
        (s.fl.getLsbD 0 = false → ∃ t, exec (.jne ra) s = .next t ∧ t.pc = s.reg a))

/-! ## Invariants -/

/-- The reset state meets the invariant. -/
def Obligations.ResetMeetsInvariant : Prop := State.reset.Inv

/-- Every step keeps the invariant: memory's canonical form, the legal flag values (R16, R17), and that the halt
fields say what halted the core (R18, R115, R121 to R123). -/
def Obligations.StepKeepsInvariant : Prop :=
  ∀ s t : State, s.Inv → step s = .next t → t.Inv

/-- Every move of the host keeps the invariant (R144). -/
def Obligations.HostActionKeepsInvariant : Prop :=
  ∀ (a : HostAction) (s t : State), s.Inv → hostAct a s = .next t → t.Inv

/-- R94: in no state that steps and host moves reach from reset, whatever is loaded, has the core halted with
UNSUPPORTED_ALU_OP; and `fl` is 0x00, 0x01, 0x02 or 0x04 there (R17, which the spec derives). -/
def Obligations.UnsupportedOperationIsUnreachable : Prop :=
  ∀ s : State, Reachable s →
    s.haltCause ≠ .unsupportedAluOp ∧ (s.fl = 0x00#8 ∨ s.fl = 0x01#8 ∨ s.fl = 0x02#8 ∨ s.fl = 0x04#8)

/-! ## The host -/

/-- R146: a load of at most 256 words while IDLE writes the words from address 0 and changes nothing else. -/
def Obligations.LoadWritesWordsFromZero : Prop :=
  ∀ (s : State) (words : List Byte), s.runState = .idle → words.length ≤ 256 →
    ∃ t, hostAct (.load words) s = .next t ∧
      (∀ (k : Nat) (h : k < words.length), memRead t.mem k = words[k]) ∧
      (∀ addr, words.length ≤ addr → memRead t.mem addr = memRead s.mem addr) ∧
      s.SameRegsBut t [] ∧ t.pc = s.pc ∧ t.fl = s.fl ∧ t.out = s.out ∧ s.SameStatus t

/-- R147, R144, R32, R44: what the host port turns away: a load outside IDLE or of more than 256 words (D15), a
single write above address 255 (D5) or while HALTED. The names are the model's, and the fault for a move that the
host must not make while RUNNING is the model's choice (log entry 18). -/
def Obligations.HostPortRefusals : Prop :=
  (∀ (s : State) (words : List Byte), s.runState ≠ .idle → hostAct (.load words) s = .refused .loadNotIdle) ∧
    (∀ (s : State) (words : List Byte), s.runState = .idle → 256 < words.length →
      hostAct (.load words) s = .refused (.loadTooLong words.length)) ∧
    (∀ (s : State) (addr : Nat) (v : Byte), s.runState = .idle → 255 < addr →
      hostAct (.memWrite addr v) s = .fault (.memWriteOutOfRange addr)) ∧
    (∀ (s : State) (addr : Nat) (v : Byte), s.runState = .running →
      hostAct (.memWrite addr v) s = .fault .hostAccessWhileRunning) ∧
    (∀ (s : State) (addr : Nat) (v : Byte), s.runState = .halted →
      hostAct (.memWrite addr v) s = .refused .memWriteHalted)

/-- R144, R32: a single write of the host in range while IDLE changes that word and nothing else. -/
def Obligations.HostWriteWhileIdle : Prop :=
  ∀ (s : State) (addr : Nat) (v : Byte), s.runState = .idle → addr ≤ 255 →
    ∃ t, hostAct (.memWrite addr v) s = .next t ∧ memRead t.mem addr = v ∧
      (∀ b, b ≠ addr → memRead t.mem b = memRead s.mem b) ∧ s.SameRegsBut t [] ∧ t.pc = s.pc ∧ t.fl = s.fl ∧
      t.out = s.out ∧ s.SameStatus t

/-- R145: Start sets RUNNING from IDLE and changes nothing else; in RUNNING and HALTED it has no effect. -/
def Obligations.StartOnlyFromIdle : Prop :=
  ∀ s : State,
    (s.runState = .idle → ∃ t, hostAct .start s = .next t ∧ t.runState = .running ∧ t.haltCause = s.haltCause ∧
        t.haltInfo = s.haltInfo ∧ s.SameProgramState t ∧ t.out = s.out) ∧
      (s.runState ≠ .idle → hostAct .start s = .next s)

/-- R140: Reset in any state gives the reset state; nothing survives it (D20). -/
def Obligations.ResetInAnyState : Prop :=
  ∀ s : State, hostAct .reset s = .next State.reset

/-- R141, R143: a program placed by Reset, Load and Start runs from address 0: the first step executes its first
instruction. The entry point is D7. -/
def Obligations.BootRunsFirstInstruction : Prop :=
  ∀ (s : State) (i : Instr) (rest : List Byte), (encode i ++ rest).length ≤ 256 →
    ∃ t, boot (encode i ++ rest) s = .next t ∧ t.runState = .running ∧ t.pc = 0x00#8 ∧ step t = exec i t

/-- R87: the digits of a printed value are decimal, have its value, and have no leading zero. -/
def Obligations.PrintedNumeralHasNoLeadingZero : Prop :=
  ∀ v : Byte, (decimalDigits v).foldl (fun n d => 10 * n + d) 0 = v.toNat ∧
    (∀ d ∈ decimalDigits v, d < 10) ∧ ((decimalDigits v).head? = some 0 → decimalDigits v = [0])

/-! ## The model switches -/

/-- R5: at the default values of the three switches, the step under switches is the step. -/
def Obligations.StepWithDefaultSwitchesIsStep : Prop :=
  ∀ s : State, stepWith Config.defaultSwitches s = step s

/-- R5, U3, U4, U6: at any values of the switches the step differs only at their corners: it is the same for an
instruction at 0xFC or below whose register operand bytes are 0 to 7 and that does not leave a running core at its own
address. What the alternatives do is the spec's own choice (D3, D6, D8). -/
def Obligations.SwitchesAgreeAwayFromTheirCorners : Prop :=
  ∀ (sw : Switches) (s : State), s.pc.toNat ≤ 0xFC → (∀ i, s.fetchInstr = some i → i.wellFormed = true) →
    (∀ t, step s = .next t → t.runState = .running → t.pc ≠ s.pc) → stepWith sw s = step s

/-- R5, R18, U4: with TOP_OF_MEMORY = fault an instruction that would form an address above 255 halts the core before
any effect, with the cause the model adds and information 0; any other one, and an unrecognized opcode, does what it does
with the wrap. The alternative is the spec's own choice (D3); that the halt appends no event, and that an operand byte
which the check stops on leaves only the operand addresses to count, is the model's (DESIGN CHOICE, log entry 20). -/
def Obligations.TopOfMemoryFaultHaltsBeforeAnyEffect : Prop :=
  ∀ (sw : Switches) (s : State), sw.topOfMemory = .fault → s.runState = .running →
    (∀ i, s.fetchInstr = some i → s.PassesTop sw i →
        ∃ t, stepWith sw s = .next t ∧ t.HaltedWith .topOfMemory 0x00#8 ∧ s.SameProgramState t ∧ t.out = s.out) ∧
      (∀ i, s.fetchInstr = some i → ¬ s.PassesTop sw i →
        stepWith sw s = stepWith { sw with topOfMemory := .wrap } s) ∧
      (s.fetchInstr = none → stepWith sw s = step s)
end

