-- ==== Sys2Proof/Laws/Decode.lean ====
section
/-!
SUPPORT. The dispatcher and the operand bytes.
-/

namespace Sys2Proof

/-- The opcode map gives each opcode byte its operation. -/
@[simp] theorem decodeOpcode_code (k : Opcode) : decodeOpcode k.code = some k := by
  cases k <;> rfl

/-- The opcode map gives an operation for its opcode byte only. -/
theorem decodeOpcode_eq_some {op : Byte} {k : Opcode} (h : decodeOpcode op = some k) : k.code = op := by
  simpa using List.find?_some h

theorem decodeOpcode_iff {op : Byte} {k : Opcode} : decodeOpcode op = some k ↔ k.code = op :=
  ⟨decodeOpcode_eq_some, fun h => h ▸ decodeOpcode_code k⟩

@[simp] theorem Opcode.build_opcode (k : Opcode) (b1 b2 : Byte) : (k.build b1 b2).opcode = k := by
  cases k <;> rfl

@[simp] theorem Instr.operandBytes_length (i : Instr) : i.operandBytes.length = i.opcode.arity := by
  cases i <;> rfl

/-- Building an operation with two bytes keeps the bytes its format has. -/
theorem Opcode.build_operandBytes (k : Opcode) (b1 b2 : Byte) :
    (k.build b1 b2).operandBytes = [b1, b2].take k.arity := by
  cases k <;> rfl

/-- What is taken from at least two bytes: the instruction built from the first two. -/
theorem takeOperands_two (k : Opcode) (b1 b2 : Byte) (rest : List Byte) :
    takeOperands k (b1 :: b2 :: rest) =
      .ok (k.build b1 b2, (b1 :: b2 :: rest).drop k.arity) := by
  cases k <;> rfl

end Sys2Proof
end

