-- ==== Sys2Proof/Laws/Memory.lean ====
section
/-!
SUPPORT. Memory: what a read gives after a write, and that every operation keeps the canonical form.
The read-after-write lemmas need no hypothesis on the memory's form.
-/

namespace Sys2Proof.Machine

@[simp] theorem memLookup_nil (addr : Nat) : memLookup [] addr = Config.memReset := rfl

theorem memLookup_filter_ne (m : Memory) (addr b : Nat) (h : b ≠ addr) :
    memLookup (m.filter fun c => c.1 != addr) b = memLookup m b := by
  induction m with
  | nil => rfl
  | cons c m ih =>
    by_cases hc : c.1 = addr
    · have : c.1 ≠ b := fun e => h (e ▸ hc)
      simp [hc, memLookup, ih, Ne.symm h]
    · simp [hc, memLookup, ih]

theorem memLookup_of_absent (m : Memory) (addr : Nat) (h : ∀ c ∈ m, c.1 ≠ addr) :
    memLookup m addr = Config.memReset := by
  induction m with
  | nil => rfl
  | cons c m ih =>
    have hc := h c (by simp)
    simp [memLookup, hc, ih fun d hd => h d (by simp [hd])]

theorem memLookup_filter_same (m : Memory) (addr : Nat) :
    memLookup (m.filter fun c => c.1 != addr) addr = Config.memReset :=
  memLookup_of_absent _ _ fun c hc => by simpa using (List.mem_filter.mp hc).2

theorem memLookup_insert_same (m : Memory) (addr : Nat) (v : Byte) (h : ∀ c ∈ m, c.1 ≠ addr) :
    memLookup (memInsert m addr v) addr = v := by
  induction m with
  | nil => simp [memInsert, memLookup]
  | cons c m ih =>
    have hc := h c (by simp)
    by_cases hlt : addr < c.1
    · simp [memInsert, hlt, memLookup]
    · simp [memInsert, hlt, memLookup, hc, ih fun d hd => h d (by simp [hd])]

theorem memLookup_insert_ne (m : Memory) (addr b : Nat) (v : Byte) (h : b ≠ addr) :
    memLookup (memInsert m addr v) b = memLookup m b := by
  induction m with
  | nil => simp [memInsert, memLookup, Ne.symm h]
  | cons c m ih =>
    by_cases hlt : addr < c.1
    · simp [memInsert, hlt, memLookup, Ne.symm h]
    · simp [memInsert, hlt, memLookup, ih]

theorem memLookup_memPut (m : Memory) (addr b : Nat) (v : Byte) :
    memLookup (memPut m addr v) b = if b = addr then v else memLookup m b := by
  have habs : ∀ c ∈ m.filter (fun c => c.1 != addr), c.1 ≠ addr := fun c hc => by
    simpa using (List.mem_filter.mp hc).2
  by_cases hb : b = addr <;> by_cases hv : v = Config.memReset
  · subst hb
    simp [memPut, hv, memLookup_filter_same]
  · subst hb
    simp [memPut, hv, memLookup_insert_same _ _ _ habs]
  · simp [memPut, hv, hb, memLookup_filter_ne]
  · simp [memPut, hv, hb, memLookup_insert_ne, memLookup_filter_ne]

/-- A read after a write: the value written at that address, the old value at every other. -/
theorem memRead_memPut (m : Memory) (addr b : Nat) (v : Byte) (h : addr < Config.memSize) :
    memRead (memPut m addr v) b = if b = addr then v else memRead m b := by
  unfold memRead
  rw [memLookup_memPut]
  by_cases hb : b = addr
  · simp [hb, h]
  · simp [hb]

@[simp] theorem memRead_nil (addr : Nat) : memRead [] addr = 0x00#8 := by
  simp [memRead]

theorem memRead_out_of_range (m : Memory) (addr : Nat) (h : Config.memSize ≤ addr) : memRead m addr = 0x00#8 := by
  simp [memRead, Nat.not_lt.mpr h]

/-- Reading any address after a core write. -/
theorem State.memRead_store (s : State) (a v : Byte) (b : Nat) :
    memRead (s.store a v).mem b = if b = a.toNat then v else memRead s.mem b :=
  memRead_memPut s.mem a.toNat b v a.isLt

/-- A core read after a core write. -/
@[simp] theorem State.load_store (s : State) (a v b : Byte) :
    (s.store a v).load b = if b = a then v else s.load b := by
  simp only [State.load, State.memRead_store, BitVec.toNat_inj]

/-! ## The canonical form -/

theorem memInsert_mem {m : Memory} {addr : Nat} {v : Byte} {c : Host.Cell} (h : c ∈ memInsert m addr v) :
    c = (addr, v) ∨ c ∈ m := by
  induction m with
  | nil => simpa [memInsert] using h
  | cons d m ih =>
    by_cases hlt : addr < d.1
    · simpa [memInsert, hlt] using h
    · simp only [memInsert, hlt, if_false, List.mem_cons] at h
      rcases h with h | h
      · simp [h]
      · rcases ih h with h | h <;> simp [h]

theorem memInsert_sorted {m : Memory} (addr : Nat) (v : Byte) (hs : m.Pairwise fun c d => c.1 < d.1)
    (h : ∀ c ∈ m, c.1 ≠ addr) : (memInsert m addr v).Pairwise fun c d => c.1 < d.1 := by
  induction m with
  | nil => simp [memInsert]
  | cons c m ih =>
    obtain ⟨hc, hm⟩ := List.pairwise_cons.mp hs
    by_cases hlt : addr < c.1
    · simp only [memInsert, hlt, if_true, List.pairwise_cons]
      refine ⟨fun d hd => ?_, hc, hm⟩
      rcases List.mem_cons.mp hd with rfl | hd
      · exact hlt
      · exact Nat.lt_trans hlt (hc d hd)
    · simp only [memInsert, hlt, if_false, List.pairwise_cons]
      refine ⟨fun d hd => ?_, ih hm fun d hd => h d (by simp [hd])⟩
      rcases memInsert_mem hd with rfl | hd
      · exact Nat.lt_of_le_of_ne (Nat.le_of_not_lt hlt) (h c (by simp))
      · exact hc d hd

/-- A write in range keeps the canonical form. -/
theorem memPut_wf {m : Memory} (addr : Nat) (v : Byte) (h : m.wf) (ha : addr < Config.memSize) :
    (memPut m addr v).wf := by
  have hs : (m.filter fun c => c.1 != addr).Pairwise fun c d => c.1 < d.1 := h.1.filter _
  have hm : ∀ c ∈ m.filter (fun c => c.1 != addr), c.1 < Config.memSize ∧ c.2 ≠ Config.memReset :=
    fun c hc => h.2 c (List.mem_filter.mp hc).1
  unfold memPut
  split
  · exact ⟨hs, hm⟩
  · next hv =>
    refine ⟨memInsert_sorted _ _ hs fun c hc => by simpa using (List.mem_filter.mp hc).2, fun c hc => ?_⟩
    rcases memInsert_mem hc with rfl | hc
    · exact ⟨ha, hv⟩
    · exact hm c hc

/-- `MemWrite` keeps the canonical form. -/
theorem memWrite_wf {m m' : Memory} {addr : Nat} {v : Byte} (h : m.wf) (hw : memWrite m addr v = some m') : m'.wf := by
  unfold memWrite at hw
  split at hw
  · next ha =>
    cases hw
    exact memPut_wf addr v h ha
  · cases hw

theorem State.store_wf {s : State} (a v : Byte) (h : s.mem.wf) : (s.store a v).mem.wf :=
  memPut_wf a.toNat v h a.isLt

/-- A load that fits keeps the canonical form. -/
theorem memLoad_wf {m : Memory} (addr : Nat) (words : List Byte) (h : m.wf)
    (hlen : addr + words.length ≤ Config.memSize) : (memLoad m addr words).wf := by
  induction words generalizing m addr with
  | nil => exact h
  | cons w ws ih =>
    simp only [List.length_cons] at hlen
    exact ih _ (memPut_wf addr w h (by omega)) (by omega)

theorem State.placeBytes_wf {s : State} (a : Byte) (bs : List Byte) (h : s.mem.wf) : (s.placeBytes a bs).mem.wf := by
  induction bs generalizing s a with
  | nil => exact h
  | cons b bs ih => exact ih _ (State.store_wf a b h)

/-- Reset's memory is in the canonical form. -/
theorem State.reset_mem_wf : State.reset.mem.wf := ⟨List.Pairwise.nil, fun _ h => nomatch h⟩

/-- A listed cell is what its address reads as. -/
theorem memLookup_of_mem {m : Memory} (hs : m.Pairwise fun c d => c.1 < d.1) {c : Host.Cell} (hc : c ∈ m) :
    memLookup m c.1 = c.2 := by
  induction m with
  | nil => cases hc
  | cons d m ih =>
    obtain ⟨hd, hm⟩ := List.pairwise_cons.mp hs
    rcases List.mem_cons.mp hc with rfl | hc
    · simp [memLookup]
    · have := hd c hc
      simp [memLookup, Nat.ne_of_lt this, ih hm hc]

/-- What an address reads as after a load of words from `addr` on. -/
theorem memLookup_memLoad (m : Memory) (addr b : Nat) (words : List Byte) :
    memLookup (memLoad m addr words) b =
      if h : addr ≤ b ∧ b - addr < words.length then words[b - addr] else memLookup m b := by
  induction words generalizing m addr with
  | nil => simp [memLoad]
  | cons w ws ih =>
    rw [memLoad, ih, memLookup_memPut]
    by_cases hb : b = addr
    · subst hb
      simp
    · by_cases hle : addr + 1 ≤ b
      · obtain ⟨k, rfl⟩ := Nat.exists_eq_add_of_le hle
        have e1 : addr + 1 + k - (addr + 1) = k := by omega
        have e2 : addr + 1 + k - addr = k + 1 := by omega
        simp [e1, e2, hb, show addr ≤ addr + 1 + k by omega]
      · simp [hle, hb, show ¬ addr ≤ b by omega]

end Sys2Proof.Machine
end

