-- ==== Sys2Proof/Laws/State.lean ====
section
/-!
SUPPORT. One lemma per field per update of the state, true by rfl, so that no proof unfolds a record update; and what
reading a register gives after each update.
-/

namespace Sys2Proof.Machine

@[simp] theorem State.setReg_mem (s : State) (r : RegIndex) (v : Byte) : (s.setReg r v).mem = s.mem := rfl
@[simp] theorem State.setReg_x (s : State) (r : RegIndex) (v : Byte) : (s.setReg r v).x = s.x.set r v := rfl
@[simp] theorem State.setReg_pc (s : State) (r : RegIndex) (v : Byte) : (s.setReg r v).pc = s.pc := rfl
@[simp] theorem State.setReg_fl (s : State) (r : RegIndex) (v : Byte) : (s.setReg r v).fl = s.fl := rfl
@[simp] theorem State.setReg_runState (s : State) (r : RegIndex) (v : Byte) : (s.setReg r v).runState = s.runState := rfl
@[simp] theorem State.setReg_haltCause (s : State) (r : RegIndex) (v : Byte) : (s.setReg r v).haltCause = s.haltCause := rfl
@[simp] theorem State.setReg_haltInfo (s : State) (r : RegIndex) (v : Byte) : (s.setReg r v).haltInfo = s.haltInfo := rfl
@[simp] theorem State.setReg_out (s : State) (r : RegIndex) (v : Byte) : (s.setReg r v).out = s.out := rfl

@[simp] theorem State.setSp_mem (s : State) (v : Byte) : (s.setSp v).mem = s.mem := rfl
@[simp] theorem State.setSp_x (s : State) (v : Byte) : (s.setSp v).x = s.x.set Config.spIndex v := rfl
@[simp] theorem State.setSp_pc (s : State) (v : Byte) : (s.setSp v).pc = s.pc := rfl
@[simp] theorem State.setSp_fl (s : State) (v : Byte) : (s.setSp v).fl = s.fl := rfl
@[simp] theorem State.setSp_runState (s : State) (v : Byte) : (s.setSp v).runState = s.runState := rfl
@[simp] theorem State.setSp_haltCause (s : State) (v : Byte) : (s.setSp v).haltCause = s.haltCause := rfl
@[simp] theorem State.setSp_haltInfo (s : State) (v : Byte) : (s.setSp v).haltInfo = s.haltInfo := rfl
@[simp] theorem State.setSp_out (s : State) (v : Byte) : (s.setSp v).out = s.out := rfl

@[simp] theorem State.setFl_mem (s : State) (v : Byte) : (s.setFl v).mem = s.mem := rfl
@[simp] theorem State.setFl_x (s : State) (v : Byte) : (s.setFl v).x = s.x := rfl
@[simp] theorem State.setFl_pc (s : State) (v : Byte) : (s.setFl v).pc = s.pc := rfl
@[simp] theorem State.setFl_fl (s : State) (v : Byte) : (s.setFl v).fl = v := rfl
@[simp] theorem State.setFl_runState (s : State) (v : Byte) : (s.setFl v).runState = s.runState := rfl
@[simp] theorem State.setFl_haltCause (s : State) (v : Byte) : (s.setFl v).haltCause = s.haltCause := rfl
@[simp] theorem State.setFl_haltInfo (s : State) (v : Byte) : (s.setFl v).haltInfo = s.haltInfo := rfl
@[simp] theorem State.setFl_out (s : State) (v : Byte) : (s.setFl v).out = s.out := rfl

@[simp] theorem State.store_mem (s : State) (a v : Byte) : (s.store a v).mem = memPut s.mem a.toNat v := rfl
@[simp] theorem State.store_x (s : State) (a v : Byte) : (s.store a v).x = s.x := rfl
@[simp] theorem State.store_pc (s : State) (a v : Byte) : (s.store a v).pc = s.pc := rfl
@[simp] theorem State.store_fl (s : State) (a v : Byte) : (s.store a v).fl = s.fl := rfl
@[simp] theorem State.store_runState (s : State) (a v : Byte) : (s.store a v).runState = s.runState := rfl
@[simp] theorem State.store_haltCause (s : State) (a v : Byte) : (s.store a v).haltCause = s.haltCause := rfl
@[simp] theorem State.store_haltInfo (s : State) (a v : Byte) : (s.store a v).haltInfo = s.haltInfo := rfl
@[simp] theorem State.store_out (s : State) (a v : Byte) : (s.store a v).out = s.out := rfl

@[simp] theorem State.advance_mem (s : State) (n : Nat) : (s.advance n).mem = s.mem := rfl
@[simp] theorem State.advance_x (s : State) (n : Nat) : (s.advance n).x = s.x := rfl
@[simp] theorem State.advance_pc (s : State) (n : Nat) : (s.advance n).pc = s.pc + BitVec.ofNat 8 n := rfl
@[simp] theorem State.advance_fl (s : State) (n : Nat) : (s.advance n).fl = s.fl := rfl
@[simp] theorem State.advance_runState (s : State) (n : Nat) : (s.advance n).runState = s.runState := rfl
@[simp] theorem State.advance_haltCause (s : State) (n : Nat) : (s.advance n).haltCause = s.haltCause := rfl
@[simp] theorem State.advance_haltInfo (s : State) (n : Nat) : (s.advance n).haltInfo = s.haltInfo := rfl
@[simp] theorem State.advance_out (s : State) (n : Nat) : (s.advance n).out = s.out := rfl

@[simp] theorem State.jump_mem (s : State) (t : Byte) : (s.jump t).mem = s.mem := rfl
@[simp] theorem State.jump_x (s : State) (t : Byte) : (s.jump t).x = s.x := rfl
@[simp] theorem State.jump_pc (s : State) (t : Byte) : (s.jump t).pc = t := rfl
@[simp] theorem State.jump_fl (s : State) (t : Byte) : (s.jump t).fl = s.fl := rfl
@[simp] theorem State.jump_runState (s : State) (t : Byte) : (s.jump t).runState = s.runState := rfl
@[simp] theorem State.jump_haltCause (s : State) (t : Byte) : (s.jump t).haltCause = s.haltCause := rfl
@[simp] theorem State.jump_haltInfo (s : State) (t : Byte) : (s.jump t).haltInfo = s.haltInfo := rfl
@[simp] theorem State.jump_out (s : State) (t : Byte) : (s.jump t).out = s.out := rfl

@[simp] theorem State.emit_mem (s : State) (e : Event) : (s.emit e).mem = s.mem := rfl
@[simp] theorem State.emit_x (s : State) (e : Event) : (s.emit e).x = s.x := rfl
@[simp] theorem State.emit_pc (s : State) (e : Event) : (s.emit e).pc = s.pc := rfl
@[simp] theorem State.emit_fl (s : State) (e : Event) : (s.emit e).fl = s.fl := rfl
@[simp] theorem State.emit_runState (s : State) (e : Event) : (s.emit e).runState = s.runState := rfl
@[simp] theorem State.emit_haltCause (s : State) (e : Event) : (s.emit e).haltCause = s.haltCause := rfl
@[simp] theorem State.emit_haltInfo (s : State) (e : Event) : (s.emit e).haltInfo = s.haltInfo := rfl
@[simp] theorem State.emit_out (s : State) (e : Event) : (s.emit e).out = s.out ++ [e] := rfl

@[simp] theorem State.haltWith_mem (s : State) (c : HaltCause) (i : Byte) : (s.haltWith c i).mem = s.mem := rfl
@[simp] theorem State.haltWith_x (s : State) (c : HaltCause) (i : Byte) : (s.haltWith c i).x = s.x := rfl
@[simp] theorem State.haltWith_pc (s : State) (c : HaltCause) (i : Byte) : (s.haltWith c i).pc = s.pc := rfl
@[simp] theorem State.haltWith_fl (s : State) (c : HaltCause) (i : Byte) : (s.haltWith c i).fl = s.fl := rfl
@[simp] theorem State.haltWith_runState (s : State) (c : HaltCause) (i : Byte) : (s.haltWith c i).runState = .halted := rfl
@[simp] theorem State.haltWith_haltCause (s : State) (c : HaltCause) (i : Byte) : (s.haltWith c i).haltCause = c := rfl
@[simp] theorem State.haltWith_haltInfo (s : State) (c : HaltCause) (i : Byte) : (s.haltWith c i).haltInfo = i := rfl
@[simp] theorem State.haltWith_out (s : State) (c : HaltCause) (i : Byte) : (s.haltWith c i).out = s.out := rfl

@[simp] theorem takeException_mem (s : State) (e : CoreException) : (takeException e s).mem = s.mem := rfl
@[simp] theorem takeException_x (s : State) (e : CoreException) : (takeException e s).x = s.x := rfl
@[simp] theorem takeException_pc (s : State) (e : CoreException) : (takeException e s).pc = s.pc := rfl
@[simp] theorem takeException_fl (s : State) (e : CoreException) : (takeException e s).fl = s.fl := rfl
@[simp] theorem takeException_runState (s : State) (e : CoreException) : (takeException e s).runState = .halted := rfl
@[simp] theorem takeException_haltCause (s : State) (e : CoreException) : (takeException e s).haltCause = e.cause := rfl
@[simp] theorem takeException_haltInfo (s : State) (e : CoreException) : (takeException e s).haltInfo = e.info := rfl
@[simp] theorem takeException_out (s : State) (e : CoreException) : (takeException e s).out = s.out ++ e.report s := rfl

@[simp] theorem State.setFl_reg (s : State) (v : Byte) (r' : RegIndex) : (s.setFl v).reg r' = s.reg r' := rfl
@[simp] theorem State.store_reg (s : State) (a v : Byte) (r' : RegIndex) : (s.store a v).reg r' = s.reg r' := rfl
@[simp] theorem State.advance_reg (s : State) (n : Nat) (r' : RegIndex) : (s.advance n).reg r' = s.reg r' := rfl
@[simp] theorem State.jump_reg (s : State) (t : Byte) (r' : RegIndex) : (s.jump t).reg r' = s.reg r' := rfl
@[simp] theorem State.emit_reg (s : State) (e : Event) (r' : RegIndex) : (s.emit e).reg r' = s.reg r' := rfl
@[simp] theorem State.haltWith_reg (s : State) (c : HaltCause) (i : Byte) (r' : RegIndex) : (s.haltWith c i).reg r' = s.reg r' := rfl
@[simp] theorem takeException_reg (s : State) (e : CoreException) (r' : RegIndex) : (takeException e s).reg r' = s.reg r' := rfl

/-! ## Registers -/

@[simp] theorem State.reg_setReg (s : State) (r r' : RegIndex) (v : Byte) :
    (s.setReg r v).reg r' = if r' = r then v else s.reg r' := by
  simp only [State.reg, State.setReg, Fin.getElem_fin, Vector.getElem_set, Fin.ext_iff]
  by_cases h : r.val = r'.val <;> simp [h, eq_comm]

@[simp] theorem State.reg_setSp (s : State) (r' : RegIndex) (v : Byte) :
    (s.setSp v).reg r' = if r' = Config.spIndex then v else s.reg r' :=
  State.reg_setReg s Config.spIndex r' v

/-- Writes of two different registers commute. -/
theorem State.setReg_comm (s : State) {r r' : RegIndex} (v v' : Byte) (h : r ≠ r') :
    (s.setReg r v).setReg r' v' = (s.setReg r' v').setReg r v := by
  have hv : r.val ≠ r'.val := fun e => h (Fin.ext e)
  simp only [State.setReg, Vector.set_comm _ _ hv]

/-- The later of two writes of one register stands. -/
@[simp] theorem State.setReg_setReg (s : State) (r : RegIndex) (v v' : Byte) :
    (s.setReg r v).setReg r v' = s.setReg r v' := by
  simp [State.setReg]

theorem State.sp_eq (s : State) : s.sp = s.reg Config.spIndex := rfl

/-- Two register files that agree on all eight registers are one. -/
theorem State.x_ext_reg {s t : State} (h : ∀ r : RegIndex, s.reg r = t.reg r) : s.x = t.x :=
  Vector.ext fun i hi => h ⟨i, hi⟩

/-- Two states that agree on every field are one. -/
theorem State.ext_fields {s t : State} (hm : s.mem = t.mem) (hx : s.x = t.x) (hp : s.pc = t.pc) (hf : s.fl = t.fl)
    (hr : s.runState = t.runState) (hc : s.haltCause = t.haltCause) (hi : s.haltInfo = t.haltInfo)
    (ho : s.out = t.out) : s = t := by
  cases s
  cases t
  simp_all

end Sys2Proof.Machine
end

