-- ==== Sys2Proof/Laws/Ops.lean ====
section
/-!
SUPPORT. One lemma per shared operation that says everything it can do; provers cite these instead of unfolding.
-/

namespace Sys2Proof.Machine

/-! ## The operand check -/

theorem regIdx_eq_some {b : Byte} {r : RegIndex} : regIdx b = some r ↔ b.toNat = r.val := by
  unfold regIdx
  split
  · simp [Fin.ext_iff]
  · next h => simp; omega

theorem regIdx_eq_none {b : Byte} : regIdx b = none ↔ 7 < b.toNat := by
  unfold regIdx
  split
  · simp; omega
  · simp; omega

theorem regIdx_isSome (b : Byte) : isRegByte b = (regIdx b).isSome := by
  unfold isRegByte regIdx
  split <;> simp <;> omega

/-- The operand check passes: the rest runs with the register the byte names. -/
theorem withReg_of_names {b : Byte} {r : RegIndex} (h : b.toNat = r.val) (s : State)
    (k : RegIndex → Host.Outcome State Fault Refusal) : withReg b s k = k r := by
  simp [withReg, regIdx_eq_some.mpr h]

/-- The operand check fails: BadRegister is taken. -/
theorem withReg_of_bad {b : Byte} (h : 7 < b.toNat) (s : State)
    (k : RegIndex → Host.Outcome State Fault Refusal) : withReg b s k = .next (takeException (.badRegister b) s) := by
  simp [withReg, regIdx_eq_none.mpr h]

/-- Everything the operand check can do. -/
theorem withReg_cases (b : Byte) (s : State) (k : RegIndex → Host.Outcome State Fault Refusal) :
    (∃ r : RegIndex, b.toNat = r.val ∧ withReg b s k = k r) ∨
      (7 < b.toNat ∧ withReg b s k = .next (takeException (.badRegister b) s)) := by
  by_cases h : b.toNat < 8
  · exact .inl ⟨⟨b.toNat, h⟩, rfl, withReg_of_names rfl s k⟩
  · exact .inr ⟨by omega, withReg_of_bad (by omega) s k⟩

/-- Everything the check of two operands can do, in operand order. -/
theorem withRegs_cases (b1 b2 : Byte) (s : State) (k : RegIndex → RegIndex → Host.Outcome State Fault Refusal) :
    (∃ a b : RegIndex, b1.toNat = a.val ∧ b2.toNat = b.val ∧ withRegs b1 b2 s k = k a b) ∨
      (7 < b1.toNat ∧ withRegs b1 b2 s k = .next (takeException (.badRegister b1) s)) ∨
      (b1.toNat ≤ 7 ∧ 7 < b2.toNat ∧ withRegs b1 b2 s k = .next (takeException (.badRegister b2) s)) := by
  unfold withRegs
  rcases withReg_cases b1 s fun a => withReg b2 s fun b => k a b with ⟨a, ha, e⟩ | ⟨h1, e⟩
  · rcases withReg_cases b2 s fun b => k a b with ⟨b, hb, e'⟩ | ⟨h2, e'⟩
    · exact .inl ⟨a, b, ha, hb, e.trans e'⟩
    · exact .inr (.inr ⟨by omega, h2, e.trans e'⟩)
  · exact .inr (.inl ⟨h1, e⟩)

/-! ## The ALU -/

/-- Everything a selector the engine passes can do: one register or the flags, and pc + 3. -/
theorem aluInstr_cases (op : AluOp) (ra rb : Byte) (s : State) :
    (∃ a b : RegIndex, ∃ t, ra.toNat = a.val ∧ rb.toNat = b.val ∧ alu op a b s = some t ∧
        aluInstr op ra rb s = .next (t.advance 3)) ∨
      (∃ a b : RegIndex, ra.toNat = a.val ∧ rb.toNat = b.val ∧ alu op a b s = none ∧
        aluInstr op ra rb s = .next (takeException .unsupportedOperation s)) ∨
      (7 < ra.toNat ∧ aluInstr op ra rb s = .next (takeException (.badRegister ra) s)) ∨
      (ra.toNat ≤ 7 ∧ 7 < rb.toNat ∧ aluInstr op ra rb s = .next (takeException (.badRegister rb) s)) := by
  unfold aluInstr
  rcases withRegs_cases ra rb s _ with ⟨a, b, ha, hb, e⟩ | ⟨h, e⟩ | ⟨h1, h2, e⟩
  · cases hal : alu op a b s with
    | none => exact .inr (.inl ⟨a, b, ha, hb, hal, by rw [e, hal]⟩)
    | some t => exact .inl ⟨a, b, t, ha, hb, hal, by rw [e, hal]⟩
  · exact .inr (.inr (.inl ⟨h, e⟩))
  · exact .inr (.inr (.inr ⟨h1, h2, e⟩))

/-! ## The stack -/

@[simp] theorem State.decSp_reg (s : State) (r : RegIndex) :
    s.decSp.reg r = if r = Config.spIndex then s.sp - 1#8 else s.reg r := State.reg_setSp s r _

@[simp] theorem State.incSp_reg (s : State) (r : RegIndex) :
    s.incSp.reg r = if r = Config.spIndex then s.sp + 1#8 else s.reg r := State.reg_setSp s r _

theorem State.decSp_sp (s : State) : s.decSp.sp = s.sp - 1#8 := by
  simp [State.sp_eq]

theorem State.incSp_sp (s : State) : s.incSp.sp = s.sp + 1#8 := by
  simp [State.sp_eq]

@[simp] theorem State.storeSp_reg (s : State) (v : Byte) (r : RegIndex) : (s.storeSp v).reg r = s.reg r := rfl
@[simp] theorem State.storeSp_sp (s : State) (v : Byte) : (s.storeSp v).sp = s.sp := rfl
@[simp] theorem State.storeSp_pc (s : State) (v : Byte) : (s.storeSp v).pc = s.pc := rfl
@[simp] theorem State.advance_sp (s : State) (n : Nat) : (s.advance n).sp = s.sp := rfl
@[simp] theorem State.jump_sp (s : State) (t : Byte) : (s.jump t).sp = s.sp := rfl

/-- Reading any address after a stack write: the byte written at the address in the stack pointer. -/
theorem State.memRead_storeSp (s : State) (v : Byte) (b : Nat) :
    memRead (s.storeSp v).mem b = if b = s.sp.toNat then v else memRead s.mem b :=
  State.memRead_store s s.sp v b

theorem State.decSp_toNat (s : State) : s.decSp.sp.toNat = (s.sp.toNat + 255) % 256 := by
  rw [State.decSp_sp, BitVec.toNat_sub]
  simp
  omega

theorem State.incSp_toNat (s : State) : s.incSp.sp.toNat = (s.sp.toNat + 1) % 256 := by
  simp [State.incSp_sp]

/-! ## Fetch and step -/

/-- The fetched instruction is what the decoder reads from the three bytes at pc. -/
theorem State.fetchInstr_eq_decode (s : State) (i : Instr) :
    s.fetchInstr = some i ↔ ∃ rest, decode s.fetchBytes = .ok (i, rest) := by
  unfold State.fetchInstr State.fetchBytes decode
  cases h : decodeOpcode (s.fetchByte 0) with
  | none => simp [h]
  | some k => simp [h, takeOperands_two]

/-- Nothing is fetched exactly when the opcode byte is unrecognized. -/
theorem State.fetchInstr_eq_none (s : State) :
    s.fetchInstr = none ↔ decodeOpcode (s.fetchByte 0) = none := by
  unfold State.fetchInstr
  cases decodeOpcode (s.fetchByte 0) <;> simp

/-- Everything a step can do. -/
theorem step_cases (s : State) :
    (s.runState ≠ .running ∧ step s = .next s) ∨
      (s.runState = .running ∧ ∃ i, s.fetchInstr = some i ∧ step s = exec i s) ∨
      (s.runState = .running ∧ s.fetchInstr = none ∧
        step s = .next (takeException (.badOpcode (s.fetchByte 0)) s)) := by
  unfold step
  cases hr : s.runState with
  | idle => simp
  | halted => simp
  | running =>
    cases hf : s.fetchInstr with
    | none => simp
    | some i => simp

end Sys2Proof.Machine
end

