-- ==== Sys2Proof/Laws/Exec.lean ====
section
/-!
SUPPORT. Everything an instruction can do, said once: its own effect, or BadRegister for an operand byte above 7.
Proofs about all instructions split on `ExecEffect` and never unfold `exec`.
-/

namespace Sys2Proof.Machine

/-- The outcomes of the instructions, one constructor per instruction and one for the operand check. -/
inductive ExecEffect (s : State) : Instr → State → Prop where
  | badRegister (i : Instr) (b : Byte) (hb : b ∈ registerOperands i) (h7 : 7 < b.toNat) (hw : i.wellFormed = false) :
      ExecEffect s i (takeException (.badRegister b) s)
  | hlt : ExecEffect s .hlt (s.haltWith .hlt 0x00#8)
  | ret : ExecEffect s .ret (s.jump s.loadSp).incSp
  | push (ra : Byte) (a : RegIndex) (ha : ra.toNat = a.val) :
      ExecEffect s (.push ra) ((s.decSp.storeSp (s.decSp.reg a)).advance 2)
  | pop (ra : Byte) (a : RegIndex) (ha : ra.toNat = a.val) :
      ExecEffect s (.pop ra) ((s.setReg a s.loadSp).incSp.advance 2)
  | prn (ra : Byte) (a : RegIndex) (ha : ra.toNat = a.val) :
      ExecEffect s (.prn ra) ((s.emit (.print (s.reg a))).advance 2)
  | call (ra : Byte) (a : RegIndex) (ha : ra.toNat = a.val) :
      ExecEffect s (.call ra) ((s.decSp.storeSp (s.pc + 2#8)).jump (s.decSp.reg a))
  | jmp (ra : Byte) (a : RegIndex) (ha : ra.toNat = a.val) : ExecEffect s (.jmp ra) (s.jump (s.reg a))
  | jeqTaken (ra : Byte) (a : RegIndex) (ha : ra.toNat = a.val) (hE : s.flE = true) :
      ExecEffect s (.jeq ra) (s.jump (s.reg a))
  | jeqFalls (ra : Byte) (a : RegIndex) (ha : ra.toNat = a.val) (hE : s.flE = false) :
      ExecEffect s (.jeq ra) (s.advance 2)
  | jneTaken (ra : Byte) (a : RegIndex) (ha : ra.toNat = a.val) (hE : s.flE = false) :
      ExecEffect s (.jne ra) (s.jump (s.reg a))
  | jneFalls (ra : Byte) (a : RegIndex) (ha : ra.toNat = a.val) (hE : s.flE = true) :
      ExecEffect s (.jne ra) (s.advance 2)
  | ldi (ra imm : Byte) (a : RegIndex) (ha : ra.toNat = a.val) :
      ExecEffect s (.ldi ra imm) ((s.setReg a imm).advance 3)
  | add (ra rb : Byte) (a b : RegIndex) (ha : ra.toNat = a.val) (hb : rb.toNat = b.val) :
      ExecEffect s (.add ra rb) ((s.setReg a (addBytes (s.reg a) (s.reg b))).advance 3)
  | mul (ra rb : Byte) (a b : RegIndex) (ha : ra.toNat = a.val) (hb : rb.toNat = b.val) :
      ExecEffect s (.mul ra rb) ((s.setReg a (mulBytes (s.reg a) (s.reg b))).advance 3)
  | cmp (ra rb : Byte) (a b : RegIndex) (ha : ra.toNat = a.val) (hb : rb.toNat = b.val) :
      ExecEffect s (.cmp ra rb) ((s.setFl (compareFlags (s.reg a) (s.reg b))).advance 3)

theorem isRegByte_false {b : Byte} (h : 7 < b.toNat) : isRegByte b = false := by
  simp only [isRegByte, decide_eq_false_iff_not]
  omega

/-- An instruction with one register operand and the effect `k` on the register it names. -/
theorem withReg_effect {b : Byte} {s t : State} {k : RegIndex → Host.Outcome State Fault Refusal} {i : Instr}
    (h : withReg b s k = .next t) (hb : b ∈ registerOperands i) (hw : isRegByte b = false → i.wellFormed = false)
    (hk : ∀ a : RegIndex, b.toNat = a.val → k a = .next t → ExecEffect s i t) : ExecEffect s i t := by
  rcases withReg_cases b s k with ⟨a, ha, e⟩ | ⟨h7, e⟩
  · exact hk a ha (e ▸ h)
  · rw [e] at h
    cases h
    exact .badRegister i b hb h7 (hw (isRegByte_false h7))

/-- An ALU instruction: its effect on the registers its operands name. -/
theorem aluInstr_effect {op : AluOp} {ra rb : Byte} {s t : State} {i : Instr} (h : aluInstr op ra rb s = .next t)
    (hi : registerOperands i = [ra, rb]) (hw : (isRegByte ra && isRegByte rb) = false → i.wellFormed = false)
    (hk : ∀ a b : RegIndex, ra.toNat = a.val → rb.toNat = b.val →
      (∃ u, alu op a b s = some u ∧ t = u.advance 3) ∨ alu op a b s = none → ExecEffect s i t) :
    ExecEffect s i t := by
  rcases aluInstr_cases op ra rb s with ⟨a, b, u, ha, hb, hu, e⟩ | ⟨a, b, ha, hb, hu, e⟩ | ⟨h7, e⟩ | ⟨_, h7, e⟩
  · rw [e] at h
    cases h
    exact hk a b ha hb (.inl ⟨u, hu, rfl⟩)
  · exact hk a b ha hb (.inr hu)
  · rw [e] at h
    cases h
    exact .badRegister i ra (by simp [hi]) h7 (hw (by simp [isRegByte_false h7]))
  · rw [e] at h
    cases h
    exact .badRegister i rb (by simp [hi]) h7 (hw (by simp [isRegByte_false h7]))

/-- Everything `exec` can answer as a next state. -/
theorem exec_effect {i : Instr} {s t : State} (h : exec i s = .next t) : ExecEffect s i t := by
  cases i with
  | hlt => cases h; exact .hlt
  | ret => cases h; exact .ret
  | push ra => exact withReg_effect h (by simp [registerOperands]) id fun a ha e => by cases e; exact .push ra a ha
  | pop ra => exact withReg_effect h (by simp [registerOperands]) id fun a ha e => by cases e; exact .pop ra a ha
  | prn ra => exact withReg_effect h (by simp [registerOperands]) id fun a ha e => by cases e; exact .prn ra a ha
  | call ra => exact withReg_effect h (by simp [registerOperands]) id fun a ha e => by cases e; exact .call ra a ha
  | jmp ra => exact withReg_effect h (by simp [registerOperands]) id fun a ha e => by cases e; exact .jmp ra a ha
  | jeq ra =>
    refine withReg_effect h (by simp [registerOperands]) id fun a ha e => ?_
    cases hE : s.flE
    · simp only [hE] at e; cases e; exact .jeqFalls ra a ha hE
    · simp only [hE] at e; cases e; exact .jeqTaken ra a ha hE
  | jne ra =>
    refine withReg_effect h (by simp [registerOperands]) id fun a ha e => ?_
    cases hE : s.flE
    · simp only [hE] at e; cases e; exact .jneTaken ra a ha hE
    · simp only [hE] at e; cases e; exact .jneFalls ra a ha hE
  | ldi ra imm => exact withReg_effect h (by simp [registerOperands]) id fun a ha e => by cases e; exact .ldi ra imm a ha
  | add ra rb =>
    refine aluInstr_effect (op := .add) h rfl id fun a b ha hb hu => ?_
    rcases hu with ⟨u, hu, rfl⟩ | hu
    · cases hu; exact .add ra rb a b ha hb
    · cases hu
  | mul ra rb =>
    refine aluInstr_effect (op := .mul) h rfl id fun a b ha hb hu => ?_
    rcases hu with ⟨u, hu, rfl⟩ | hu
    · cases hu; exact .mul ra rb a b ha hb
    · cases hu
  | cmp ra rb =>
    refine aluInstr_effect (op := .cmp) h rfl id fun a b ha hb hu => ?_
    rcases hu with ⟨u, hu, rfl⟩ | hu
    · cases hu; exact .cmp ra rb a b ha hb
    · cases hu

/-- An ALU instruction whose operands name registers does what the ALU does, and pc + 3. -/
theorem aluInstr_of_names {op : AluOp} {ra rb : Byte} {a b : RegIndex} (ha : ra.toNat = a.val) (hb : rb.toNat = b.val)
    {s t : State} (h : alu op a b s = some t) : aluInstr op ra rb s = .next (t.advance 3) := by
  unfold aluInstr withRegs
  rw [withReg_of_names ha, withReg_of_names hb]
  simp only [h]

/-- What taking an exception leaves as it was. -/
theorem takeException_sameProgramState (e : CoreException) (s : State) : s.SameProgramState (takeException e s) :=
  ⟨fun _ _ => rfl, rfl, rfl, fun _ => rfl⟩

/-- The code bytes, by number. -/
theorem State.fetchByte_eq_codeByte (s : State) (k : Nat) : s.fetchByte k = s.codeByte k := by
  simp [State.fetchByte, State.codeByte, State.load]

/-- `pc +8 n` as a number. -/
theorem State.advance_pc_toNat (s : State) (n : Nat) : (s.advance n).pc.toNat = (s.pc.toNat + n) % 256 := by
  simp

/-- `fl.E` as a number. -/
theorem State.flE_iff (s : State) : s.flE = true ↔ s.fl.toNat % 2 = 1 := by
  simp [State.flE, BitVec.getLsbD, Nat.testBit_zero]

end Sys2Proof.Machine
end

