-- ==== Sys2Proof/Laws/PerInstr.lean ====
section
/-!
SUPPORT. The family EncodeLength: the encoding of an instruction has the length its opcode fixes (30_encoding.md R50).
-/

namespace Sys2Proof.Laws.EncodeLength

/-- R50: length = 1 + arity, and 1 to 3 bytes. -/
def Statement (i : Instr) : Prop := (encode i).length = i.length ∧ 1 ≤ i.length ∧ i.length ≤ 3

theorem hlt : Statement .hlt := ⟨rfl, by decide, by decide⟩
theorem ret : Statement .ret := ⟨rfl, by decide, by decide⟩
theorem push (ra : Byte) : Statement (.push ra) := ⟨rfl, Nat.le_add_right 1 1, Nat.le_add_right 2 1⟩
theorem pop (ra : Byte) : Statement (.pop ra) := ⟨rfl, Nat.le_add_right 1 1, Nat.le_add_right 2 1⟩
theorem prn (ra : Byte) : Statement (.prn ra) := ⟨rfl, Nat.le_add_right 1 1, Nat.le_add_right 2 1⟩
theorem call (ra : Byte) : Statement (.call ra) := ⟨rfl, Nat.le_add_right 1 1, Nat.le_add_right 2 1⟩
theorem jmp (ra : Byte) : Statement (.jmp ra) := ⟨rfl, Nat.le_add_right 1 1, Nat.le_add_right 2 1⟩
theorem jeq (ra : Byte) : Statement (.jeq ra) := ⟨rfl, Nat.le_add_right 1 1, Nat.le_add_right 2 1⟩
theorem jne (ra : Byte) : Statement (.jne ra) := ⟨rfl, Nat.le_add_right 1 1, Nat.le_add_right 2 1⟩
theorem ldi (ra imm : Byte) : Statement (.ldi ra imm) := ⟨rfl, Nat.le_add_right 1 2, Nat.le_refl 3⟩
theorem add (ra rb : Byte) : Statement (.add ra rb) := ⟨rfl, Nat.le_add_right 1 2, Nat.le_refl 3⟩
theorem mul (ra rb : Byte) : Statement (.mul ra rb) := ⟨rfl, Nat.le_add_right 1 2, Nat.le_refl 3⟩
theorem cmp (ra rb : Byte) : Statement (.cmp ra rb) := ⟨rfl, Nat.le_add_right 1 2, Nat.le_refl 3⟩

end Sys2Proof.Laws.EncodeLength
end

