-- ==== Sys2Proof/Tests/Slice0.lean ====
section
/-!
SUPPORT. Tests: the smoke test of WellFormed, one word of every instruction written out from 30_encoding.md, at most two
one-step vectors of 95_test_vectors.md per instruction (its name is in the comment), and a witness for the hypotheses of
every statement that has some.
-/

namespace Sys2Proof.Tests

open Sys2Proof Sys2Proof.Machine

/-! ## Helpers -/

/-- A RUNNING core, otherwise reset, with bytes from an address on and pc there. -/
def at_ (pc : Byte) (bytes : List Byte) : State :=
  { State.reset.placeBytes pc bytes with pc := pc, runState := .running }

/-- An outcome is a next state that passes a check. -/
def gives (o : Host.Outcome State Fault Refusal) (p : State → Bool) : Bool :=
  match o with
  | .next t => p t
  | .fault _ => false
  | .refused _ => false

/-- The next state of an outcome (the reset state where there is none). -/
def after (o : Host.Outcome State Fault Refusal) : State :=
  match o with
  | .next t => t
  | .fault _ => State.reset
  | .refused _ => State.reset

/-! ## WellFormed smoke: an ill-formed term for each check -/

theorem test_wellFormed_refuses_first_operand :
    (Instr.push 0x08#8).wellFormed = false ∧ (Instr.pop 0x09#8).wellFormed = false ∧
      (Instr.prn 0x10#8).wellFormed = false ∧ (Instr.call 0x80#8).wellFormed = false ∧
      (Instr.jmp 0xFF#8).wellFormed = false ∧ (Instr.jeq 0x08#8).wellFormed = false ∧
      (Instr.jne 0x08#8).wellFormed = false ∧ (Instr.ldi 0x08#8 0x00#8).wellFormed = false ∧
      (Instr.add 0x08#8 0x00#8).wellFormed = false ∧ (Instr.mul 0x08#8 0x00#8).wellFormed = false ∧
      (Instr.cmp 0x08#8 0x00#8).wellFormed = false := by decide

theorem test_wellFormed_refuses_second_operand :
    (Instr.add 0x00#8 0x08#8).wellFormed = false ∧ (Instr.mul 0x07#8 0xFF#8).wellFormed = false ∧
      (Instr.cmp 0x07#8 0x0F#8).wellFormed = false := by decide

theorem test_wellFormed_accepts :
    (Instr.ldi 0x07#8 0xFF#8).wellFormed = true ∧ (Instr.add 0x07#8 0x07#8).wellFormed = true ∧
      Instr.hlt.wellFormed = true := by decide

/-! ## Decoding: every instruction's word, bit by bit from R51 and R57 -/

theorem test_decode_hlt : decode [0b00000001#8] = .ok (.hlt, []) := rfl
theorem test_decode_ret : decode [0b00010001#8] = .ok (.ret, []) := rfl
theorem test_decode_push : decode [0b01000101#8, 0b00000010#8] = .ok (.push 0x02#8, []) := rfl
theorem test_decode_pop : decode [0b01000110#8, 0b00000011#8] = .ok (.pop 0x03#8, []) := rfl
theorem test_decode_prn : decode [0b01000111#8, 0b00000000#8] = .ok (.prn 0x00#8, []) := rfl
theorem test_decode_call : decode [0b01010000#8, 0b00000001#8] = .ok (.call 0x01#8, []) := rfl
theorem test_decode_jmp : decode [0b01010100#8, 0b00000101#8] = .ok (.jmp 0x05#8, []) := rfl
theorem test_decode_jeq : decode [0b01010101#8, 0b00000110#8] = .ok (.jeq 0x06#8, []) := rfl
theorem test_decode_jne : decode [0b01010110#8, 0b00000111#8] = .ok (.jne 0x07#8, []) := rfl
theorem test_decode_ldi :
    decode [0b10000010#8, 0b00000001#8, 0b10000001#8] = .ok (.ldi 0x01#8 0x81#8, []) := rfl
theorem test_decode_add :
    decode [0b10100000#8, 0b00000001#8, 0b00000100#8] = .ok (.add 0x01#8 0x04#8, []) := rfl
theorem test_decode_mul :
    decode [0b10100010#8, 0b00000000#8, 0b00000001#8] = .ok (.mul 0x00#8 0x01#8, []) := rfl
theorem test_decode_cmp :
    decode [0b10100111#8, 0b00000011#8, 0b00000010#8] = .ok (.cmp 0x03#8 0x02#8, []) := rfl

/-- 95 2.8: the nearest refused neighbours of the accepted opcodes. -/
theorem test_decode_refuses_neighbours :
    (∀ op ∈ [0x00#8, 0x02#8, 0x10#8, 0x12#8, 0x44#8, 0x48#8, 0x4F#8, 0x51#8, 0x53#8, 0x57#8, 0x81#8, 0x83#8,
      0x9F#8, 0xA1#8, 0xA3#8, 0xA6#8, 0xA8#8], decodeOpcode op = none) := by decide

theorem test_decode_truncated : decode [0x82#8, 0x00#8] = .error (.truncated .ldi) := rfl

/-- The opcode table numbers bit 0 as the least significant bit of the first byte. -/
theorem test_decodeTableWord :
    decodeTableWord 24 0x080082 = some (.ldi 0x00#8 0x08#8) ∧ decodeTableWord 8 0x82 = some (.ldi 0x00#8 0x00#8) ∧
      decodeTableWord 16 0x0345 = some (.push 0x03#8) ∧ decodeTableWord 8 0x00 = none := by decide

theorem test_withFetchWord_runs_first :
    gives (step (State.reset.withFetchWord 24 0x090182)) (fun t => t.reg 1 == 0x09#8 && t.pc == 0x03#8) := by decide

/-- R8: the spec's examples of its notation. -/
theorem test_assembly : (Instr.ldi 0x00#8 0x08#8).assembly = "LDI R0, 8" ∧ (Instr.mul 0x00#8 0x01#8).assembly = "MUL R0, R1" := by
  decide

/-! ## One-step vectors (95_test_vectors.md section 2) -/

/-- V-LDI-2 -/
theorem test_ldi_stack_pointer :
    gives (step (at_ 0x00#8 [0x82#8, 0x07#8, 0x10#8])) (fun t => t.sp == 0x10#8 && t.pc == 0x03#8) := by decide
/-- V-LDI-5 -/
theorem test_ldi_across_top :
    gives (step (at_ 0xFF#8 [0x82#8, 0x05#8, 0x66#8])) (fun t => t.reg 5 == 0x66#8 && t.pc == 0x02#8) := by decide
/-- V-LDI-6 -/
theorem test_ldi_bad_register :
    gives (step (at_ 0x00#8 [0x82#8, 0x08#8, 0x01#8]))
      (fun t => t.haltCause == .badRegister && t.haltInfo == 0x08#8 && t.pc == 0x00#8 && t.x == State.reset.x) := by
  decide
/-- V-PRN-2 -/
theorem test_prn_stack_pointer :
    gives (step (at_ 0x00#8 [0x47#8, 0x07#8])) (fun t => t.out == [.print 244#8] && t.pc == 0x02#8) := by decide
/-- V-ADD-1 -/
theorem test_add_wraps :
    gives (step (((at_ 0x00#8 [0xA0#8, 0x00#8, 0x01#8]).setReg 0 0xC8#8).setReg 1 0x64#8))
      (fun t => t.reg 0 == 0x2C#8 && t.reg 1 == 0x64#8 && t.fl == 0x00#8 && t.pc == 0x03#8) := by decide
/-- V-ADD-7: operand 1 is reported -/
theorem test_add_bad_registers :
    gives (step (at_ 0x00#8 [0xA0#8, 0x10#8, 0x20#8])) (fun t => t.haltCause == .badRegister && t.haltInfo == 0x10#8) := by
  decide
/-- V-MUL-3 -/
theorem test_mul_wraps :
    gives (step (((at_ 0x00#8 [0xA2#8, 0x00#8, 0x01#8]).setReg 0 0xFF#8).setReg 1 0xFF#8))
      (fun t => t.reg 0 == 0x01#8 && t.pc == 0x03#8) := by decide
/-- V-MUL-6 -/
theorem test_mul_same_register :
    gives (step ((at_ 0x00#8 [0xA2#8, 0x03#8, 0x03#8]).setReg 3 0x11#8)) (fun t => t.reg 3 == 0x21#8) := by decide
/-- V-CMP-4 -/
theorem test_cmp_unsigned_less :
    gives (step ((at_ 0x00#8 [0xA7#8, 0x00#8, 0x01#8]).setReg 1 0xFF#8)) (fun t => t.fl == 0x04#8 && t.pc == 0x03#8) := by
  decide
/-- V-CMP-5 -/
theorem test_cmp_unsigned_greater :
    gives (step (((at_ 0x00#8 [0xA7#8, 0x00#8, 0x01#8]).setReg 0 0x80#8).setReg 1 0x7F#8)) (fun t => t.fl == 0x02#8) := by
  decide
/-- V-STK-2 -/
theorem test_push_wraps :
    gives (step (((at_ 0x00#8 [0x45#8, 0x00#8]).setSp 0x00#8).setReg 0 0x5A#8))
      (fun t => t.sp == 0xFF#8 && t.load 0xFF#8 == 0x5A#8 && t.pc == 0x02#8) := by decide
/-- V-STK-3 -/
theorem test_push_r7 :
    gives (step (at_ 0x00#8 [0x45#8, 0x07#8])) (fun t => t.sp == 0xF3#8 && t.load 0xF3#8 == 0xF3#8) := by decide
/-- V-STK-5 -/
theorem test_pop_wraps :
    gives (step (((at_ 0x00#8 [0x46#8, 0x01#8]).setSp 0xFF#8).store 0xFF#8 0x33#8))
      (fun t => t.reg 1 == 0x33#8 && t.sp == 0x00#8) := by decide
/-- V-STK-6 -/
theorem test_pop_r7 :
    gives (step (((at_ 0x00#8 [0x46#8, 0x07#8]).setSp 0xF3#8).store 0xF3#8 0x20#8)) (fun t => t.sp == 0x21#8) := by
  decide
/-- V-SUB-4 -/
theorem test_call_at_top :
    gives (step ((at_ 0xFF#8 [0x50#8, 0x01#8]).setReg 1 0x30#8))
      (fun t => t.sp == 0xF3#8 && t.load 0xF3#8 == 0x01#8 && t.pc == 0x30#8) := by decide
/-- V-SUB-5 -/
theorem test_call_r7 :
    gives (step (at_ 0x00#8 [0x50#8, 0x07#8]))
      (fun t => t.sp == 0xF3#8 && t.load 0xF3#8 == 0x02#8 && t.pc == 0xF3#8) := by decide
/-- V-SUB-2 -/
theorem test_ret :
    gives (step (((at_ 0x0E#8 [0x11#8]).setSp 0xF3#8).store 0xF3#8 0x08#8)) (fun t => t.pc == 0x08#8 && t.sp == 0xF4#8) := by
  decide
/-- V-BR-1, and V-BR-9 (D8): a jump to its own address stays there -/
theorem test_jmp :
    gives (step ((at_ 0x00#8 [0x54#8, 0x03#8]).setReg 3 0x17#8)) (fun t => t.pc == 0x17#8) ∧
      gives (step ((at_ 0x03#8 [0x54#8, 0x00#8]).setReg 0 0x03#8)) (fun t => t.pc == 0x03#8) := by decide
/-- V-BR-4, V-BR-6 -/
theorem test_jeq :
    gives (step (((at_ 0x00#8 [0x55#8, 0x00#8]).setReg 0 0x40#8).setFl 0x01#8)) (fun t => t.pc == 0x40#8) ∧
      gives (step (((at_ 0x00#8 [0x55#8, 0x00#8]).setReg 0 0x40#8).setFl 0x02#8)) (fun t => t.pc == 0x02#8) := by decide
/-- V-BR-8: checked although the jump would not be taken -/
theorem test_jeq_bad_register :
    gives (step ((at_ 0x00#8 [0x55#8, 0x09#8]).setFl 0x04#8))
      (fun t => t.haltCause == .badRegister && t.haltInfo == 0x09#8) := by decide
/-- V-BR-3, V-BR-5 -/
theorem test_jne :
    gives (step ((at_ 0x00#8 [0x56#8, 0x00#8]).setReg 0 0x40#8)) (fun t => t.pc == 0x40#8) ∧
      gives (step (((at_ 0x00#8 [0x56#8, 0x00#8]).setReg 0 0x40#8).setFl 0x01#8)) (fun t => t.pc == 0x02#8) := by decide
/-- V-HLT-1 -/
theorem test_hlt :
    gives (step (at_ 0x0B#8 [0x01#8]))
      (fun t => endedCleanly t && t.haltInfo == 0x00#8 && t.pc == 0x0B#8 && t.out == []) := by decide
/-- V-BAD-2 -/
theorem test_bad_opcode :
    gives (step ((at_ 0x00#8 [0xFF#8, 0x01#8, 0x02#8]).setReg 0 0x01#8))
      (fun t => endedInFailure t && t.haltCause == .badOpcode && t.haltInfo == 0xFF#8 && t.pc == 0x00#8 &&
        t.out == [.badInstruction 0x00#8 0x01#8 0x02#8 #v[0x01#8, 0x00#8, 0x00#8, 0x00#8, 0x00#8, 0x00#8, 0x00#8, 0xF4#8]]) := by
  decide
/-- V-HLT-2 -/
theorem test_halted_takes_no_step :
    gives (step ((at_ 0x00#8 [0x82#8, 0x00#8, 0x08#8]).haltWith .hlt 0x00#8)) (fun t => t.pc == 0x00#8 && t.reg 0 == 0x00#8) := by
  decide

/-! ## Memory port and host (95 2.7), switches (U3, U4, U6), rendering (R87) -/

/-- V-MEM-2, with mem[44] not 0 -/
theorem test_read_out_of_range : memRead (memPut [] 44 0x07#8) 300 = 0x00#8 ∧ memRead (memPut [] 44 0x07#8) 44 = 0x07#8 := by
  decide
/-- V-MEM-3 -/
theorem test_host_write : gives (hostMemWrite 255 0xAB#8 State.reset) (fun t => memRead t.mem 255 == 0xAB#8) := by decide
/-- V-MEM-4 -/
theorem test_host_write_out_of_range : hostMemWrite 256 0xAB#8 State.reset = .fault (.memWriteOutOfRange 256) := rfl
/-- V-MEM-5 -/
theorem test_load : gives (hostLoad [0x82#8, 0x00#8, 0x08#8] State.reset)
    (fun t => t.mem == [(0, 0x82#8), (2, 0x08#8)] && t.runState == .idle && t.x == State.reset.x) := by decide
/-- V-MEM-6 -/
theorem test_load_too_long : hostLoad (List.replicate 257 0x01#8) State.reset = .refused (.loadTooLong 257) := by
  unfold hostLoad
  rw [List.length_replicate]
  rfl
/-- V-BR-9 with PC_FALLBACK_COMPARE = true -/
theorem test_fallback_compare :
    gives (stepWith { Config.defaultSwitches with pcFallbackCompare := true } ((at_ 0x03#8 [0x54#8, 0x00#8]).setReg 0 0x03#8))
      (fun t => t.pc == 0x04#8) := by decide
/-- P7 with REG_INDEX_POLICY = mask3 -/
theorem test_mask3 :
    gives (stepWith { Config.defaultSwitches with regIndexPolicy := .mask3 } (at_ 0x00#8 [0x82#8, 0x08#8, 0x01#8]))
      (fun t => t.reg 0 == 0x01#8 && t.pc == 0x03#8) := by decide
/-- P8 step 3 with TOP_OF_MEMORY = fault; HLT at 0xFF forms no such address (U4) -/
theorem test_top_of_memory :
    gives (stepWith { Config.defaultSwitches with topOfMemory := .fault } (at_ 0xFE#8 [0x82#8, 0x02#8, 0x82#8]))
        (fun t => t == (at_ 0xFE#8 [0x82#8, 0x02#8, 0x82#8]).haltWith .topOfMemory 0x00#8) ∧
      gives (stepWith { Config.defaultSwitches with topOfMemory := .fault } (at_ 0xFF#8 [0x01#8])) endedCleanly := by
  decide
/-- R87: 72, 0 and 255 -/
theorem test_numerals :
    decimalNumeral 72#8 = ['7', '2'] ∧ decimalNumeral 0#8 = ['0'] ∧ decimalNumeral 255#8 = ['2', '5', '5'] := by decide

/-! ## Witnesses: the hypotheses of each statement are met together -/

theorem witness_MemReadContract :
    Memory.wf [(0, 0x01#8), (255, 0x02#8)] ∧ (255, 0x02#8) ∈ ([(0, 0x01#8), (255, 0x02#8)] : Memory) ∧ 255 ≤ 255 ∧
      (∀ c ∈ ([(0, 0x01#8), (255, 0x02#8)] : Memory), c.1 ≠ 254) ∧ 254 ≤ 255 ∧ 255 < 256 := by decide

theorem witness_MemWriteContract : 0 ≤ 255 ∧ 255 ≤ 255 ∧ (254 : Nat) ≠ 255 ∧ 255 < 256 := by decide

theorem witness_CanonicalMemoriesWithEqualReadsAreEqual :
    ∃ m m' : Memory, m.wf ∧ m'.wf ∧ m ≠ [] ∧ ∀ addr, addr ≤ 255 → memRead m addr = memRead m' addr :=
  ⟨[(7, 0x01#8)], [(7, 0x01#8)], by decide, by decide, by decide, fun _ _ => rfl⟩

theorem witness_RegisterReadAfterWrite : (0 : RegIndex) ≠ 7 := by decide

theorem witness_RegisterOperandByteNamesItsIndex : (0x07#8).toNat ≤ 7 ∧ 7 < (0x08#8).toNat := by decide

theorem witness_OpcodeMapIsTheTable :
    0x00#8 ∉ [0x01#8, 0x11#8, 0x45#8, 0x46#8, 0x47#8, 0x50#8, 0x54#8, 0x55#8, 0x56#8, 0x82#8, 0xA0#8, 0xA2#8, 0xA7#8] := by
  decide

/-- Both sides of the equivalence, an operand byte above 7 among them. -/
theorem witness_DecodeInvertsEncode :
    decode [0x47#8, 0x07#8, 0x01#8] = .ok (.prn 0x07#8, [0x01#8]) ∧
      [0xA0#8, 0xFF#8, 0x08#8, 0x01#8] = encode (.add 0xFF#8 0x08#8) ++ [0x01#8] := ⟨rfl, rfl⟩

theorem witness_StepRunsDecodedInstruction :
    (at_ 0xFF#8 [0x82#8, 0x07#8, 0x01#8]).runState = .running ∧
      decode [(at_ 0xFF#8 [0x82#8, 0x07#8, 0x01#8]).codeByte 0, (at_ 0xFF#8 [0x82#8, 0x07#8, 0x01#8]).codeByte 1,
        (at_ 0xFF#8 [0x82#8, 0x07#8, 0x01#8]).codeByte 2] = .ok (.ldi 0x07#8 0x01#8, []) := ⟨rfl, rfl⟩

theorem witness_StepRunsEncodedInstruction :
    (at_ 0xFF#8 [0x45#8, 0x07#8]).runState = .running ∧
      [(at_ 0xFF#8 [0x45#8, 0x07#8]).codeByte 0, (at_ 0xFF#8 [0x45#8, 0x07#8]).codeByte 1] = encode (.push 0x07#8) := by
  decide

theorem witness_UnrecognizedOpcodeReportsAndHalts :
    (at_ 0x00#8 [0xA1#8]).runState = .running ∧
      (at_ 0x00#8 [0xA1#8]).codeByte 0 ∉ [0x01#8, 0x11#8, 0x45#8, 0x46#8, 0x47#8, 0x50#8, 0x54#8, 0x55#8, 0x56#8,
        0x82#8, 0xA0#8, 0xA2#8, 0xA7#8] := by decide

theorem witness_NoStepOutsideRunning :
    State.reset.runState ≠ .running ∧ (State.reset.haltWith .hlt 0x00#8).runState ≠ .running := by decide

/-- One witness for each end of the register range. -/
theorem witness_LdiLoadsImmediate : (0x00#8).toNat = (0 : RegIndex).val ∧ (0x07#8).toNat = (7 : RegIndex).val := by decide
theorem witness_PrnEmitsRegister : (0x00#8).toNat = (0 : RegIndex).val ∧ (0x07#8).toNat = (7 : RegIndex).val := by decide
theorem witness_AddKeepsLowByteOfSum : (0x07#8).toNat = (7 : RegIndex).val ∧ (0x00#8).toNat = (0 : RegIndex).val := by decide
theorem witness_MulKeepsLowByteOfProduct : (0x07#8).toNat = (7 : RegIndex).val ∧ (0x00#8).toNat = (0 : RegIndex).val := by
  decide

/-- The three clauses of CMP: equal, greater at 128 against 127, less at 0 against 255. -/
theorem witness_CmpSetsExactlyOneFlag :
    (0x00#8).toNat = (0 : RegIndex).val ∧ (0x07#8).toNat = (7 : RegIndex).val ∧
      (State.reset.reg 0).toNat = (State.reset.reg 1).toNat ∧
      (((State.reset.setReg 0 0x80#8).setReg 7 0x7F#8).reg 7).toNat < (((State.reset.setReg 0 0x80#8).setReg 7 0x7F#8).reg 0).toNat ∧
      (((State.reset.setReg 0 0x00#8).setReg 7 0xFF#8).reg 0).toNat < (((State.reset.setReg 0 0x00#8).setReg 7 0xFF#8).reg 7).toNat := by
  decide

/-- Both clauses: a register other than R7, and R7. -/
theorem witness_PushStoresBelowStackPointer :
    (0x06#8).toNat = (6 : RegIndex).val ∧ (6 : RegIndex) ≠ 7 ∧ (0x07#8).toNat = (7 : RegIndex).val := by decide
theorem witness_PopReadsAtStackPointer :
    (0x06#8).toNat = (6 : RegIndex).val ∧ (6 : RegIndex) ≠ 7 ∧ (0x07#8).toNat = (7 : RegIndex).val := by decide
theorem witness_CallPushesReturnAddress :
    (0x06#8).toNat = (6 : RegIndex).val ∧ (6 : RegIndex) ≠ 7 ∧ (0x07#8).toNat = (7 : RegIndex).val := by decide
theorem witness_JmpSetsProgramCounter : (0x07#8).toNat = (7 : RegIndex).val := by decide

/-- Both clauses: E set, E clear with L set. -/
theorem witness_JeqJumpsWhenEqualBitSet :
    (0x07#8).toNat = (7 : RegIndex).val ∧ (State.reset.setFl 0x01#8).fl.toNat % 2 = 1 ∧
      (State.reset.setFl 0x04#8).fl.toNat % 2 = 0 := by decide
theorem witness_JneJumpsWhenEqualBitClear :
    (0x07#8).toNat = (7 : RegIndex).val ∧ (State.reset.setFl 0x04#8).fl.toNat % 2 = 0 ∧
      (State.reset.setFl 0x01#8).fl.toNat % 2 = 1 := by decide

theorem witness_BadRegisterOperandHaltsFirst :
    (registerOperands (.add 0x08#8 0x09#8)).find? (fun c => decide (7 < c.toNat)) = some 0x08#8 ∧
      (registerOperands (.cmp 0x07#8 0xFF#8)).find? (fun c => decide (7 < c.toNat)) = some 0xFF#8 ∧
      (registerOperands (.jeq 0x08#8)).find? (fun c => decide (7 < c.toNat)) = some 0x08#8 := by decide

theorem witness_OtherAluSelectorIsUnsupported : (0x07#8).toNat ≤ 7 ∧ (0x00#8).toNat ≤ 7 := by decide

theorem witness_AluTouchesOnlyItsResult :
    alu .add 0 7 State.reset = some (State.reset.setReg 0 0xF4#8) ∧
      alu .cmp 0 7 State.reset = some (State.reset.setFl 0x04#8) := by decide

/-- A step that raises BadOpcode, and one that raises BadRegister. -/
theorem witness_FaultsArePrecise :
    ∃ s t u v : State, s.runState = .running ∧ s.haltCause = .none ∧ step s = .next t ∧ t.haltCause = .badOpcode ∧
      u.runState = .running ∧ u.haltCause = .none ∧ step u = .next v ∧ v.haltCause = .badRegister :=
  ⟨at_ 0x00#8 [], _, at_ 0x00#8 [0x47#8, 0x08#8], _, rfl, rfl, rfl, by decide, rfl, rfl, rfl, by decide⟩

theorem witness_StepHaltsOnlyByHltOrFault :
    ∃ s t : State, s.runState = .running ∧ s.haltCause = .none ∧ step s = .next t ∧ t.haltCause = .hlt :=
  ⟨at_ 0x00#8 [0x01#8], _, rfl, rfl, rfl, rfl⟩

theorem witness_OnlyResetLeavesHalted :
    (State.reset.haltWith .hlt 0x00#8).runState = .halted ∧ HostAction.start ≠ .reset ∧
      hostAct .start (State.reset.haltWith .hlt 0x00#8) = .next (State.reset.haltWith .hlt 0x00#8) := ⟨rfl, by decide, rfl⟩

theorem witness_HostReadsByRunState :
    State.reset.runState ≠ .running ∧ 255 < 256 ∧ (at_ 0x00#8 []).runState = .running := by decide

theorem witness_OnlyCmpWritesFlags : ∃ t, exec (.cmp 0x00#8 0x07#8) State.reset = .next t ∧ t.fl = 0x04#8 :=
  ⟨_, rfl, by decide⟩
theorem witness_OnlyPushAndCallWriteMemory :
    ∃ t, exec (.push 0x07#8) State.reset = .next t ∧ memRead t.mem 0xF3 = 0xF3#8 := ⟨_, rfl, by decide⟩
theorem witness_OutputOnlyGrowsByPrnOrDiagnostic :
    ∃ t, step (at_ 0x00#8 [0x47#8, 0x07#8]) = .next t ∧ t.out ≠ [] := ⟨_, rfl, by decide⟩
theorem witness_OnlyListedRegistersAreWritten :
    ∃ t, exec (.pop 0x06#8) State.reset = .next t ∧ writesReg (.pop 0x06#8) 5 = false ∧
      writesReg (.pop 0x06#8) 6 = true ∧ writesReg (.pop 0x06#8) 7 = true := ⟨_, rfl, by decide⟩

/-- A register neither read nor written, and one written and not read. -/
theorem witness_UnreadRegisterHasNoInfluence :
    readsReg (.push 0x06#8) State.reset 5 = false ∧ writesReg (.push 0x06#8) 5 = false ∧
      readsReg (.ldi 0x07#8 0x01#8) State.reset 7 = false ∧ writesReg (.ldi 0x07#8 0x01#8) 7 = true := by decide

theorem witness_PushThenPopRestores :
    (0x07#8).toNat = (7 : RegIndex).val ∧ (0x06#8).toNat = (6 : RegIndex).val ∧ (6 : RegIndex) ≠ 7 := by decide

theorem witness_StackIsLastInFirstOut :
    (0x00#8).toNat = (0 : RegIndex).val ∧ (0x01#8).toNat = (1 : RegIndex).val ∧ (0 : RegIndex) ≠ 7 ∧
      (1 : RegIndex) ≠ 7 ∧ (0 : RegIndex) ≠ 1 := by decide

theorem witness_RetResumesAfterCall :
    ∃ t v : State, (0x07#8).toNat = (7 : RegIndex).val ∧ exec (.call 0x07#8) State.reset = .next t ∧ v.sp = t.sp ∧
      memRead v.mem v.sp.toNat = memRead t.mem t.sp.toNat ∧ v.fl ≠ t.fl :=
  ⟨_, (after (exec (.call 0x07#8) State.reset)).setFl 0x01#8, by decide, rfl, by decide, by decide, by decide⟩

/-- A RUNNING state of the invariant whose step is a PUSH that writes memory. -/
theorem witness_StepKeepsInvariant :
    ∃ s t : State, s.Inv ∧ step s = .next t ∧ t.mem ≠ s.mem :=
  ⟨at_ 0x00#8 [0x45#8, 0x07#8], _, ⟨by decide, by decide, by decide, by decide⟩, rfl, by decide⟩

/-- A HALTED state of the invariant for each cause. -/
theorem witness_StepKeepsInvariant_halted :
    (after (step (at_ 0x00#8 [0x01#8]))).Inv ∧ (after (step (at_ 0x00#8 [0xA1#8]))).Inv ∧
      (after (step (at_ 0x00#8 [0xA0#8, 0x00#8, 0x08#8]))).Inv :=
  ⟨⟨by decide, by decide, by decide, by decide⟩, ⟨by decide, by decide, by decide, by decide⟩,
    ⟨by decide, by decide, by decide, by decide⟩⟩

theorem witness_HostActionKeepsInvariant :
    ∃ t, State.reset.Inv ∧ hostAct (.load [0x82#8, 0x00#8, 0x08#8]) State.reset = .next t ∧ t.mem ≠ [] :=
  ⟨_, ⟨by decide, by decide, by decide, by decide⟩, rfl, by decide⟩

/-- A reachable state in which an instruction has run. -/
theorem witness_UnsupportedOperationIsUnreachable : ∃ s, Reachable s ∧ s.reg 0 = 0x08#8 :=
  ⟨_, .next (.next (.next .reset (.host (.load [0x82#8, 0x00#8, 0x08#8]) rfl)) (.host .start rfl)) (.core rfl), by decide⟩

theorem witness_LoadWritesWordsFromZero :
    State.reset.runState = .idle ∧ (List.replicate 256 0x01#8).length ≤ 256 :=
  ⟨rfl, by rw [List.length_replicate]⟩

theorem witness_HostPortRefusals :
    (at_ 0x00#8 []).runState ≠ .idle ∧ (at_ 0x00#8 []).runState = .running ∧ State.reset.runState = .idle ∧
      256 < (List.replicate 257 0x01#8).length ∧ 255 < 256 ∧ (State.reset.haltWith .hlt 0x00#8).runState = .halted :=
  ⟨by decide, rfl, rfl, by rw [List.length_replicate]; decide, by decide, rfl⟩

theorem witness_HostWriteWhileIdle : State.reset.runState = .idle ∧ 255 ≤ 255 := by decide

theorem witness_StartOnlyFromIdle : State.reset.runState = .idle ∧ (at_ 0x00#8 []).runState ≠ .idle := by decide

theorem witness_BootRunsFirstInstruction :
    (encode (.ldi 0x00#8 0x08#8) ++ List.replicate 253 0x01#8).length ≤ 256 := by
  rw [List.length_append, List.length_replicate]
  decide

theorem witness_PrintedNumeralHasNoLeadingZero : (decimalDigits 0x00#8).head? = some 0 := by decide

/-- All switches away from their defaults, an instruction that moves pc. -/
theorem witness_SwitchesAgreeAwayFromTheirCorners :
    (at_ 0xFC#8 [0x82#8, 0x07#8, 0x01#8]).pc.toNat ≤ 0xFC ∧
      (at_ 0xFC#8 [0x82#8, 0x07#8, 0x01#8]).fetchInstr = some (.ldi 0x07#8 0x01#8) ∧
      (Instr.ldi 0x07#8 0x01#8).wellFormed = true ∧
      gives (step (at_ 0xFC#8 [0x82#8, 0x07#8, 0x01#8])) (fun t => t.pc != 0xFC#8) := by decide

/-- P8 step 3 passes the top; LDI at 0xFC, whose next address is 0xFF, does not, and an empty memory has no instruction.
The boundary of each clause of U4: the last operand at 0x100, the next address 0x100, HLT and a taken JEQ at the top. -/
theorem witness_TopOfMemoryFaultHaltsBeforeAnyEffect :
    (at_ 0xFE#8 [0x82#8, 0x02#8, 0x82#8]).fetchInstr = some (.ldi 0x02#8 0x82#8) ∧
      (at_ 0xFE#8 []).PassesTop Config.defaultSwitches (.ldi 0x02#8 0x82#8) ∧
      (at_ 0xFD#8 []).PassesTop Config.defaultSwitches (.ldi 0x02#8 0x82#8) ∧
      ¬ (at_ 0xFC#8 []).PassesTop Config.defaultSwitches (.ldi 0x02#8 0x82#8) ∧
      ¬ (at_ 0xFF#8 []).PassesTop Config.defaultSwitches .hlt ∧
      ¬ ((at_ 0xFE#8 []).setFl 0x01#8).PassesTop Config.defaultSwitches (.jeq 0x02#8) ∧
      (at_ 0xFE#8 []).PassesTop Config.defaultSwitches (.jeq 0x02#8) ∧ (at_ 0xFE#8 []).fetchInstr = none := by
  refine ⟨rfl, .inl (by decide), .inr ⟨by decide, .inl rfl, by decide, by decide, fun ra => ⟨?_, ?_, ?_⟩⟩, ?_, ?_, ?_,
    .inr ⟨by decide, .inl rfl, by decide, by decide, fun ra => ⟨?_, fun _ => by decide, ?_⟩⟩, rfl⟩
  any_goals simp
  · rintro (h | ⟨h, -⟩) <;> exact absurd h (by decide)
  · rintro (h | ⟨-, -, h, -⟩)
    · exact absurd h (by decide)
    · exact h rfl
  · rintro (h | ⟨-, -, -, -, h⟩)
    · exact absurd h (by decide)
    · exact absurd ((h 0x02#8).2.1 rfl) (by decide)

theorem witness_FlagsRegisterLayout :
    Reachable State.reset ∧ (0x02#8).toNat = (2 : RegIndex).val ∧
      (at_ 0x00#8 []).fl.getLsbD 3 = false ∧ (at_ 0x00#8 []).fl.getLsbD 0 = (0x02#8 : Byte).getLsbD 0 ∧
      gives (execCmp 0x00#8 0x00#8 (at_ 0x00#8 [])) (fun t => t.fl != (at_ 0x00#8 []).fl) :=
  ⟨.reset, by decide⟩

/-- LDI at the last address whose operand bytes do not pass the top. -/
theorem witness_OnlyLdiHasAnImmediate :
    (at_ 0xFD#8 [0x82#8, 0x07#8, 0xFF#8]).runState = .running ∧ (at_ 0xFD#8 []).pc.toNat + 2 ≤ 255 ∧
      memRead (at_ 0xFD#8 [0x82#8, 0x07#8, 0xFF#8]).mem 0xFD = 0x82#8 ∧
      (memRead (at_ 0xFD#8 [0x82#8, 0x07#8, 0xFF#8]).mem 0xFE).toNat = (7 : RegIndex).val ∧
      (at_ 0x00#8 []).fl.getLsbD 0 = false ∧ ((at_ 0x00#8 []).setFl 0x01#8).fl.getLsbD 0 = true := by decide

end Sys2Proof.Tests
end

section
/-!
PROOFS. The model switches (00_scope.md R5): what each alternative does away from its corner, and the step under switches
as the step with these parts put in.
-/

namespace Sys2Proof.Machine

/-! ## REG_INDEX_POLICY (U6) -/

/-- The low 3 bits of a byte, by number. -/
theorem mask3_toNat (b : Byte) : (mask3 b).toNat = b.toNat % 8 := by
  have h : b.toNat &&& 2 ^ 3 - 1 = b.toNat % 2 ^ 3 := Nat.and_two_pow_sub_one_eq_mod b.toNat 3
  simpa [mask3] using h

theorem isRegByte_iff {b : Byte} : isRegByte b = true ↔ b.toNat ≤ 7 := by
  simp [isRegByte]

@[simp] theorem isRegByte_mask3 (b : Byte) : isRegByte (mask3 b) = true := by
  rw [isRegByte_iff, mask3_toNat]
  omega

theorem mask3_of_isRegByte {b : Byte} (h : isRegByte b = true) : mask3 b = b := by
  apply BitVec.eq_of_toNat_eq
  rw [isRegByte_iff] at h
  rw [mask3_toNat]
  omega

@[simp] theorem maskOperands_wellFormed (i : Instr) : (maskOperands i).wellFormed = true := by
  cases i <;> simp [maskOperands, Instr.wellFormed]

@[simp] theorem maskOperands_opcode (i : Instr) : (maskOperands i).opcode = i.opcode := by
  cases i <;> rfl

@[simp] theorem formsSuccessor_maskOperands (i : Instr) (s : State) :
    formsSuccessor (maskOperands i) s = formsSuccessor i s := by
  cases i <;> rfl

theorem maskOperands_of_wellFormed {i : Instr} (h : i.wellFormed = true) : maskOperands i = i := by
  cases i with
  | hlt | ret => rfl
  | push ra | pop ra | prn ra | call ra | jmp ra | jeq ra | jne ra | ldi ra imm =>
    simp only [maskOperands, mask3_of_isRegByte h]
  | add ra rb | mul ra rb | cmp ra rb =>
    obtain ⟨ha, hb⟩ := Bool.and_eq_true_iff.mp h
    simp only [maskOperands, mask3_of_isRegByte ha, mask3_of_isRegByte hb]

/-- An instruction that passes the operand check is the same under both policies. -/
theorem underRegPolicy_of_wellFormed (p : RegIndexPolicy) {i : Instr} (h : i.wellFormed = true) :
    underRegPolicy p i = i := by
  cases p with
  | fault => rfl
  | mask3 => exact maskOperands_of_wellFormed h

@[simp] theorem underRegPolicy_opcode (p : RegIndexPolicy) (i : Instr) : (underRegPolicy p i).opcode = i.opcode := by
  cases p with
  | fault => rfl
  | mask3 => exact maskOperands_opcode i

@[simp] theorem formsSuccessor_underRegPolicy (p : RegIndexPolicy) (i : Instr) (s : State) :
    formsSuccessor (underRegPolicy p i) s = formsSuccessor i s := by
  cases p with
  | fault => rfl
  | mask3 => exact formsSuccessor_maskOperands i s

/-- Under a policy an instruction passes the operand check as it stands, or because its operands are masked. -/
theorem underRegPolicy_wellFormed_iff (p : RegIndexPolicy) (i : Instr) :
    (underRegPolicy p i).wellFormed = true ↔ i.wellFormed = true ∨ p = .mask3 := by
  cases p <;> simp [underRegPolicy]

/-! ## TOP_OF_MEMORY (U4) -/

/-- R50: at most two operand bytes. -/
theorem Opcode.arity_le_two (k : Opcode) : k.arity ≤ 2 := by
  cases k <;> decide

/-- No instruction at 0xFC or below forms an address above 255. -/
theorem formsHighAddress_of_pc_le {s : State} (h : s.pc.toNat ≤ 0xFC) (i : Instr) : formsHighAddress i s = false := by
  have ha := Opcode.arity_le_two i.opcode
  have hop : ¬ 255 < s.pc.toNat + i.opcode.arity := by omega
  have hlen : ¬ 255 < s.pc.toNat + i.length := by unfold Instr.length; omega
  simp [formsHighAddress, hop, hlen]

/-- U4's fall-throughs and CALL, by exclusion: every instruction but HLT, RET, JMP and a taken JEQ or JNE. -/
theorem formsSuccessor_iff (i : Instr) (s : State) :
    formsSuccessor i s = true ↔ i ≠ .hlt ∧ i ≠ .ret ∧
      ∀ ra, i ≠ .jmp ra ∧ (i = .jeq ra → s.fl.toNat % 2 = 0) ∧ (i = .jne ra → s.fl.toNat % 2 = 1) := by
  cases i with
  | jeq ra => simp [formsSuccessor, ← Bool.not_eq_true, State.flE_iff]
  | jne ra => simp [formsSuccessor, State.flE_iff]
  | hlt | ret | push | pop | prn | call | jmp | ldi | add | mul | cmp => simp [formsSuccessor]

/-- The condition of U4 is what the step under switches decides by. -/
theorem formsHighAddress_underRegPolicy_iff (sw : Switches) (s : State) (i : Instr) :
    formsHighAddress (underRegPolicy sw.regIndexPolicy i) s = true ↔ s.PassesTop sw i := by
  have hlen : s.pc.toNat + (underRegPolicy sw.regIndexPolicy i).length = s.pc.toNat + i.opcode.arity + 1 := by
    rw [Instr.length, underRegPolicy_opcode]
    omega
  simp only [formsHighAddress, State.PassesTop, hlen, Bool.or_eq_true, Bool.and_eq_true, decide_eq_true_eq,
    underRegPolicy_opcode, underRegPolicy_wellFormed_iff, formsSuccessor_underRegPolicy, formsSuccessor_iff,
    Instr.operandBytes_length]
  tauto

/-- The halt of U4 changes the run state, the cause and the information, and nothing else. -/
theorem haltAtTopOfMemory_frame (s : State) :
    (haltAtTopOfMemory s).HaltedWith .topOfMemory 0x00#8 ∧ s.SameProgramState (haltAtTopOfMemory s) ∧
      (haltAtTopOfMemory s).out = s.out :=
  ⟨⟨rfl, rfl, rfl⟩, ⟨fun _ _ => rfl, rfl, rfl, fun _ => rfl⟩, rfl⟩

theorem execWith_of_formsHighAddress {sw : Switches} {i : Instr} {s : State} (hsw : sw.topOfMemory = .fault)
    (h : formsHighAddress i s = true) : execWith sw i s = .next (haltAtTopOfMemory s) := by
  simp [execWith, hsw, h]

/-- An instruction that forms no address above 255 is the same at both values of TOP_OF_MEMORY. -/
theorem execWith_of_not_formsHighAddress (sw : Switches) {i : Instr} {s : State} (h : formsHighAddress i s = false) :
    execWith sw i s = underFallback sw.pcFallbackCompare s (exec i s) := by
  cases hsw : sw.topOfMemory <;> simp [execWith, hsw, h]

/-! ## PC_FALLBACK_COMPARE (U3) -/

/-- The comparison changes nothing where no running core stays at its own address. -/
theorem underFallback_of_moves (on : Bool) {s : State} {o : Host.Outcome State Fault Refusal}
    (h : ∀ t, o = .next t → t.runState = .running → t.pc ≠ s.pc) : underFallback on s o = o := by
  cases on with
  | false => rfl
  | true =>
    cases o with
    | fault r => rfl
    | refused r => rfl
    | next t =>
      have ht : ¬ (t.runState = .running ∧ t.pc = s.pc) := fun ⟨hr, hp⟩ => h t rfl hr hp
      simp only [underFallback, fallbackCompare, if_neg ht]

/-! ## The step under switches -/

theorem step_of_fetched {s : State} {i : Instr} (hr : s.runState = .running) (hf : s.fetchInstr = some i) :
    step s = exec i s := by
  simp [step, hr, hf]

theorem stepWith_of_fetched (sw : Switches) {s : State} {i : Instr} (hr : s.runState = .running)
    (hf : s.fetchInstr = some i) : stepWith sw s = execWith sw (underRegPolicy sw.regIndexPolicy i) s := by
  simp [stepWith, hr, hf]

/-- The switches act on a fetched instruction only: the step is the same where that one is. -/
theorem stepWith_eq_step {sw : Switches} {s : State}
    (h : ∀ i, s.runState = .running → s.fetchInstr = some i →
      execWith sw (underRegPolicy sw.regIndexPolicy i) s = exec i s) : stepWith sw s = step s := by
  unfold stepWith step
  cases hr : s.runState with
  | idle => rfl
  | halted => rfl
  | running =>
    cases hf : s.fetchInstr with
    | none => rfl
    | some i => exact h i hr hf

/-! ## The obligations -/

/-- Settles O56: at 0xFC or below no address passes the top, the masked instruction is the instruction, and the
comparison finds pc moved. -/
theorem switchesAgreeAwayFromTheirCorners : Obligations.SwitchesAgreeAwayFromTheirCorners := by
  intro sw s hpc hwf hmoves
  refine stepWith_eq_step fun i hr hf => ?_
  rw [step_of_fetched hr hf] at hmoves
  calc execWith sw (underRegPolicy sw.regIndexPolicy i) s
      = execWith sw i s := by rw [underRegPolicy_of_wellFormed _ (hwf i hf)]
    _ = underFallback sw.pcFallbackCompare s (exec i s) :=
        execWith_of_not_formsHighAddress sw (formsHighAddress_of_pc_le hpc i)
    _ = exec i s := underFallback_of_moves _ hmoves

/-- Settles O57: `PassesTop` is the condition `execWith` decides by before any effect. -/
theorem topOfMemoryFaultHaltsBeforeAnyEffect : Obligations.TopOfMemoryFaultHaltsBeforeAnyEffect := by
  intro sw s hsw hr
  refine ⟨fun i hf htop => ?_, fun i hf htop => ?_, fun hf => ?_⟩
  · have hhigh := (formsHighAddress_underRegPolicy_iff sw s i).mpr htop
    refine ⟨haltAtTopOfMemory s, ?_, haltAtTopOfMemory_frame s⟩
    rw [stepWith_of_fetched sw hr hf, execWith_of_formsHighAddress hsw hhigh]
  · have hlow : formsHighAddress (underRegPolicy sw.regIndexPolicy i) s = false :=
      Bool.eq_false_iff.mpr (mt (formsHighAddress_underRegPolicy_iff sw s i).mp htop)
    rw [stepWith_of_fetched sw hr hf, stepWith_of_fetched _ hr hf, execWith_of_not_formsHighAddress sw hlow,
      execWith_of_not_formsHighAddress _ hlow]
  · refine stepWith_eq_step fun i _ hi => ?_
    rw [hf] at hi
    cases hi

/-- Settles O55: at the defaults a fetched instruction runs as it stands. -/
theorem stepWithDefaultSwitchesIsStep : Obligations.StepWithDefaultSwitchesIsStep := by
  intro s
  exact stepWith_eq_step fun _ _ _ => rfl

end Sys2Proof.Machine
end

section
/-!
PROOFS. Memory in canonical form (20_memory.md R30, R31): what it lists is what it reads as.
-/

namespace Sys2Proof.Machine

theorem memRead_of_lt {addr : Nat} (m : Memory) (h : addr < Config.memSize) : memRead m addr = memLookup m addr :=
  if_pos h

/-- A listed cell is what its address reads as. -/
theorem memRead_of_mem {m : Memory} (hm : m.wf) {c : Host.Cell} (hc : c ∈ m) : memRead m c.1 = c.2 := by
  rw [memRead_of_lt m (hm.2 c hc).1, memLookup_of_mem hm.1 hc]

/-- An address that is not listed reads as memory's reset contents, or as 0 out of range. -/
theorem memRead_of_absent {m : Memory} {addr : Nat} (h : ∀ v, (addr, v) ∉ m) : memRead m addr = 0x00#8 := by
  have hl : memLookup m addr = 0x00#8 := memLookup_of_absent m addr fun c hc e => h c.2 (e ▸ hc)
  simp [memRead, hl]

/-- The cells of a canonical memory are its words that are not 0. -/
theorem mem_iff_memRead {m : Memory} (hm : m.wf) (c : Host.Cell) :
    c ∈ m ↔ c.1 < Config.memSize ∧ memRead m c.1 = c.2 ∧ c.2 ≠ Config.memReset := by
  constructor
  · intro hc
    obtain ⟨hlt, hne⟩ := hm.2 c hc
    exact ⟨hlt, memRead_of_mem hm hc, hne⟩
  · rintro ⟨-, hr, hne⟩
    by_contra hc
    have habs : ∀ v, (c.1, v) ∉ m := fun v hv => by
      obtain rfl : c.2 = v := hr.symm.trans (memRead_of_mem hm hv)
      exact hc hv
    exact hne (hr.symm.trans (memRead_of_absent habs))

/-- Settles O2: a canonical list holds at most one cell of an address, which the lookup finds. -/
theorem memReadContract : Obligations.MemReadContract := by
  intro m addr hm
  exact ⟨fun _ v hv => memRead_of_mem hm hv, fun _ habs => memRead_of_absent habs,
    fun h => memRead_out_of_range m addr h⟩

/-- Settles O4: equal reads give the same cells, and strictly rising lists of the same cells are equal. -/
theorem canonicalMemoriesWithEqualReadsAreEqual : Obligations.CanonicalMemoriesWithEqualReadsAreEqual := by
  intro m m' hm hm' hread
  have hcells : ∀ c, c ∈ m ↔ c ∈ m' := fun c => by
    rw [mem_iff_memRead hm, mem_iff_memRead hm']
    refine and_congr_right fun hlt => ?_
    rw [hread c.1 (Nat.le_of_lt_succ hlt)]
  have : Std.Irrefl fun c d : Host.Cell => c.1 < d.1 := ⟨fun c => Nat.lt_irrefl c.1⟩
  have : Std.Antisymm fun c d : Host.Cell => c.1 < d.1 := ⟨fun _ _ h h' => absurd h (Nat.lt_asymm h')⟩
  exact hm.1.eq_of_mem_iff hm'.1 hcells

end Sys2Proof.Machine
end

section
/-!
PROOFS. The reset state and the register file (10_state.md R10 to R13, R22).
-/

namespace Sys2Proof.Machine

/-- Settles O1: memory lists no cell, and the other fields are the literals of the reset state. -/
theorem resetMatchesStateTable : Obligations.ResetMatchesStateTable := by
  have hregs : ∀ r : RegIndex, r ≠ 7 → State.reset.reg r = 0x00#8 := by decide
  exact ⟨memRead_nil, hregs, rfl, rfl, rfl, rfl, rfl, rfl, rfl⟩

/-- Settles O5: the rule of `reg_setReg` at the same and at another register. -/
theorem registerReadAfterWrite : Obligations.RegisterReadAfterWrite := by
  intro s r r' v
  refine ⟨?_, fun hne => ?_, s.sp_eq⟩
  · rw [State.reg_setReg, if_pos rfl]
  · rw [State.reg_setReg, if_neg hne]

/-- R22: the reset state meets the invariant, its run state being IDLE. -/
theorem State.reset_inv : State.reset.Inv where
  memWf := State.reset_mem_wf
  flags := rfl
  notHalted _ := ⟨rfl, rfl⟩
  halted h := by cases h

/-- Settles O44: memory lists no cell, the flags are 0x00, and the core is IDLE with cause NONE. -/
theorem resetMeetsInvariant : Obligations.ResetMeetsInvariant := State.reset_inv

end Sys2Proof.Machine
end

section
/-!
PROOFS. Per piece of state, everything an instruction can do to it (10_state.md R11, R16 to R20), from `ExecEffect`.
-/

namespace Sys2Proof.Machine

/-! ## Memory -/

/-- Memory is kept, or one byte is written at the decremented stack pointer, by PUSH or CALL. -/
theorem ExecEffect.mem_cases {s t : State} {i : Instr} (h : ExecEffect s i t) :
    t.mem = s.mem ∨ ((∃ ra, i = .push ra ∨ i = .call ra) ∧ ∃ v, t.mem = (s.store s.decSp.sp v).mem) := by
  cases h with
  | push ra a ha => exact .inr ⟨⟨ra, .inl rfl⟩, s.decSp.reg a, rfl⟩
  | call ra a ha => exact .inr ⟨⟨ra, .inr rfl⟩, s.pc + 2#8, rfl⟩
  | badRegister | hlt | ret | pop | prn | jmp | jeqTaken | jeqFalls | jneTaken | jneFalls | ldi | add | mul | cmp =>
    exact .inl rfl

theorem ExecEffect.mem_wf {s t : State} {i : Instr} (h : ExecEffect s i t) (hm : s.mem.wf) : t.mem.wf := by
  rcases h.mem_cases with e | ⟨-, v, e⟩ <;> rw [e]
  · exact hm
  · exact State.store_wf s.decSp.sp v hm

/-- Settles O37: the byte PUSH or CALL writes is the one its address reads differently at. -/
theorem onlyPushAndCallWriteMemory : Obligations.OnlyPushAndCallWriteMemory := by
  intro i s t h
  rcases (exec_effect h).mem_cases with e | ⟨hi, v, e⟩
  · exact .inl fun addr => by rw [e]
  · refine .inr ⟨hi, fun addr hne => ?_⟩
    rw [e, State.memRead_store, if_neg hne]

/-! ## Flags -/

/-- The flags are kept, or are CMP's result. -/
theorem ExecEffect.fl_cases {s t : State} {i : Instr} (h : ExecEffect s i t) :
    t.fl = s.fl ∨ ∃ ra rb a b, i = .cmp ra rb ∧ t.fl = compareFlags (s.reg a) (s.reg b) := by
  cases h with
  | cmp ra rb a b ha hb => exact .inr ⟨ra, rb, a, b, rfl, rfl⟩
  | badRegister | hlt | ret | push | pop | prn | call | jmp | jeqTaken | jeqFalls | jneTaken | jneFalls | ldi | add
  | mul => exact .inl rfl

/-- R93: exactly one of E, G, L, by the comparison of the two numbers. -/
theorem compareFlags_cases (a b : Byte) :
    (a.toNat = b.toNat ∧ compareFlags a b = 0x01#8) ∨ (b.toNat < a.toNat ∧ compareFlags a b = 0x02#8) ∨
      (a.toNat < b.toNat ∧ compareFlags a b = 0x04#8) := by
  unfold compareFlags
  split
  · next heq => exact .inl ⟨by rw [heq], rfl⟩
  · next hne =>
    have hne : a.toNat ≠ b.toNat := mt BitVec.eq_of_toNat_eq hne
    split
    · next hlt => exact .inr (.inl ⟨hlt, rfl⟩)
    · exact .inr (.inr ⟨by omega, rfl⟩)

theorem legalFlags_compareFlags (a b : Byte) : legalFlags (compareFlags a b) = true := by
  rcases compareFlags_cases a b with ⟨-, e⟩ | ⟨-, e⟩ | ⟨-, e⟩ <;> rw [e] <;> rfl

theorem legalFlags_iff {v : Byte} :
    legalFlags v = true ↔ v = 0x00#8 ∨ v = 0x01#8 ∨ v = 0x02#8 ∨ v = 0x04#8 := by
  simp [legalFlags, or_assoc]

/-- R16: bits 7 to 3 of a legal value are 0. -/
theorem getLsbD_of_legalFlags {v : Byte} (h : legalFlags v = true) {k : Nat} (hk : 3 ≤ k) : v.getLsbD k = false := by
  have hlt : v.toNat < 2 ^ 3 := by rcases legalFlags_iff.mp h with rfl | rfl | rfl | rfl <;> decide
  exact Nat.testBit_lt_two_pow (Nat.lt_of_lt_of_le hlt (Nat.pow_le_pow_right (by decide) hk))

theorem ExecEffect.fl_legal {s t : State} {i : Instr} (h : ExecEffect s i t) (hf : legalFlags s.fl = true) :
    legalFlags t.fl = true := by
  rcases h.fl_cases with e | ⟨-, -, a, b, -, e⟩ <;> rw [e]
  · exact hf
  · exact legalFlags_compareFlags _ _

/-- Settles O36: CMP's three results are the cases of its comparison. -/
theorem onlyCmpWritesFlags : Obligations.OnlyCmpWritesFlags := by
  intro i s t h
  rcases (exec_effect h).fl_cases with e | ⟨ra, rb, a, b, hi, e⟩
  · exact .inl e
  · refine .inr ⟨ra, rb, hi, ?_⟩
    rw [e]
    rcases compareFlags_cases (s.reg a) (s.reg b) with ⟨-, e⟩ | ⟨-, e⟩ | ⟨-, e⟩ <;> simp [e]

/-! ## Output -/

/-- The output is kept, or PRN appends the value of its register. -/
theorem ExecEffect.out_cases {s t : State} {i : Instr} (h : ExecEffect s i t) :
    t.out = s.out ∨ ∃ ra a, i = .prn ra ∧ ra.toNat = a.val ∧ t.out = s.out ++ [.print (s.reg a)] := by
  cases h with
  | prn ra a ha => exact .inr ⟨ra, a, rfl, ha, rfl⟩
  | badRegister => exact .inl (List.append_nil _)
  | hlt | ret | push | pop | call | jmp | jeqTaken | jeqFalls | jneTaken | jneFalls | ldi | add | mul | cmp =>
    exact .inl rfl

/-- Settles O38: a step is the fetched instruction's, or takes BadOpcode, which appends the diagnostic. -/
theorem outputOnlyGrowsByPrnOrDiagnostic : Obligations.OutputOnlyGrowsByPrnOrDiagnostic := by
  intro s t h
  rcases step_cases s with ⟨-, e⟩ | ⟨-, i, hf, e⟩ | ⟨-, hf, e⟩ <;> rw [e] at h
  · cases h
    exact .inl rfl
  · rcases (exec_effect h).out_cases with ho | ⟨ra, a, rfl, ha, ho⟩
    · exact .inl ho
    · exact .inr (.inl ⟨ra, a, hf, ha, ho⟩)
  · cases h
    exact .inr (.inr ⟨hf, rfl⟩)

/-! ## Registers -/

/-- A byte that names a register passes the operand check. -/
theorem isRegByte_of_names {b : Byte} {a : RegIndex} (h : b.toNat = a.val) : isRegByte b = true :=
  isRegByte_iff.mpr (by omega)

/-- A byte that names `a` names `r` exactly when they are one register. -/
theorem names_eq_decide {b : Byte} {a : RegIndex} (h : b.toNat = a.val) (r : RegIndex) :
    (b.toNat == r.val) = decide (r = a) := by
  rw [h, Bool.eq_iff_iff, beq_iff_eq, decide_eq_true_iff, Fin.ext_iff, eq_comm]

/-- A register outside the "writes" column is kept. -/
theorem ExecEffect.reg_of_not_written {s t : State} {i : Instr} {r : RegIndex} (h : ExecEffect s i t)
    (hr : writesReg i r = false) : t.reg r = s.reg r := by
  cases h with
  | badRegister | hlt | prn | jmp | jeqTaken | jeqFalls | jneTaken | jneFalls | cmp => rfl
  | ret =>
    have h7 : r ≠ 7 := by simpa [writesReg, Instr.wellFormed] using hr
    simp [h7]
  | push ra a ha | call ra a ha =>
    have h7 : r ≠ 7 := by simpa [writesReg, Instr.wellFormed, isRegByte_of_names ha] using hr
    simp [h7]
  | pop ra a ha =>
    obtain ⟨h7, hra⟩ : r ≠ 7 ∧ r ≠ a := by
      simpa [writesReg, Instr.wellFormed, isRegByte_of_names ha, names_eq_decide ha] using hr
    simp [h7, hra]
  | ldi ra imm a ha =>
    have hra : r ≠ a := by simpa [writesReg, Instr.wellFormed, isRegByte_of_names ha, names_eq_decide ha] using hr
    simp [hra]
  | add ra rb a b ha hb | mul ra rb a b ha hb =>
    have hra : r ≠ a := by
      simpa [writesReg, Instr.wellFormed, isRegByte_of_names ha, isRegByte_of_names hb, names_eq_decide ha] using hr
    simp [hra]

/-- Settles O39: no effect of an instruction writes a register outside its column. -/
theorem onlyListedRegistersAreWritten : Obligations.OnlyListedRegistersAreWritten :=
  fun _ _ _ _ h hr => (exec_effect h).reg_of_not_written hr

end Sys2Proof.Machine
end

section
/-!
PROOFS. The invariant (10_state.md R16 to R18, 60_exceptions.md R121 to R123): kept by every step and every move of the
host, so it holds in every reachable state.
-/

namespace Sys2Proof.Machine

/-! ## How an instruction ends -/

/-- An instruction keeps the run state, cause and information, or halts: as HLT, or on a bad operand byte. -/
theorem ExecEffect.status_cases {s t : State} {i : Instr} (h : ExecEffect s i t) :
    s.SameStatus t ∨ (i = .hlt ∧ t = s.haltWith .hlt 0x00#8) ∨
      ∃ b ∈ registerOperands i, 7 < b.toNat ∧ i.wellFormed = false ∧ t = takeException (.badRegister b) s := by
  cases h with
  | badRegister _ b hb h7 hw => exact .inr (.inr ⟨b, hb, h7, hw, rfl⟩)
  | hlt => exact .inr (.inl ⟨rfl, rfl⟩)
  | ret | push | pop | prn | call | jmp | jeqTaken | jeqFalls | jneTaken | jneFalls | ldi | add | mul | cmp =>
    exact .inl ⟨rfl, rfl, rfl⟩

/-! ## The evidence of a halt: the fetched bytes stay, since a halt keeps pc and memory -/

/-- A fetched instruction's opcode byte is at pc. -/
theorem State.fetchByte_zero_of_fetched {s : State} {i : Instr} (h : s.fetchInstr = some i) :
    s.fetchByte 0 = i.opcode.code := by
  unfold State.fetchInstr at h
  split at h
  · next k hk =>
    cases h
    rw [Opcode.build_opcode, decodeOpcode_eq_some hk]
  · cases h

theorem mem_operandBytes_of_mem_registerOperands {i : Instr} {b : Byte} (h : b ∈ registerOperands i) :
    b ∈ i.operandBytes := by
  cases i with
  | ldi ra imm => exact List.mem_cons.mpr (.inl (List.mem_singleton.mp h))
  | hlt | ret | push | pop | prn | call | jmp | jeq | jne | add | mul | cmp => exact h

theorem haltEvidence_haltWith_hlt {s : State} (hf : s.fetchInstr = some .hlt) :
    haltEvidence (s.haltWith .hlt 0x00#8) = true := by
  have hop : (s.haltWith .hlt 0x00#8).fetchByte 0 = 0x01#8 := s.fetchByte_zero_of_fetched hf
  simp [haltEvidence, hop]

theorem haltEvidence_badOpcode {s : State} (hf : s.fetchInstr = none) :
    haltEvidence (takeException (.badOpcode (s.fetchByte 0)) s) = true := by
  have hop : (takeException (.badOpcode (s.fetchByte 0)) s).fetchByte 0 = s.fetchByte 0 := rfl
  simp [haltEvidence, CoreException.cause, CoreException.info, hop, s.fetchInstr_eq_none.mp hf]

theorem haltEvidence_badRegister {s : State} {i : Instr} {b : Byte} (hf : s.fetchInstr = some i)
    (hb : b ∈ registerOperands i) (h7 : 7 < b.toNat) (hw : i.wellFormed = false) :
    haltEvidence (takeException (.badRegister b) s) = true := by
  have hi : (takeException (.badRegister b) s).fetchInstr = some i := hf
  simp [haltEvidence, CoreException.cause, CoreException.info, hi, h7, hw, mem_operandBytes_of_mem_registerOperands hb]

/-! ## Steps -/

/-- A halt with evidence needs only memory and flags from before. -/
theorem State.Inv.of_halted {t : State} (hm : t.mem.wf) (hf : legalFlags t.fl = true) (hr : t.runState = .halted)
    (he : haltEvidence t = true) : t.Inv where
  memWf := hm
  flags := hf
  notHalted hn := absurd hr hn
  halted _ := he

/-- A fetched instruction keeps the invariant of a RUNNING core. -/
theorem ExecEffect.inv {s t : State} {i : Instr} (h : ExecEffect s i t) (hs : s.Inv) (hr : s.runState = .running)
    (hf : s.fetchInstr = some i) : t.Inv := by
  have hm := h.mem_wf hs.memWf
  have hfl := h.fl_legal hs.flags
  rcases h.status_cases with ⟨hrun, hcause, hinfo⟩ | ⟨rfl, rfl⟩ | ⟨b, hb, h7, hw, rfl⟩
  · have hne : s.runState ≠ .halted := by simp [hr]
    refine ⟨hm, hfl, fun _ => ?_, fun hh => absurd (hrun ▸ hh) hne⟩
    rw [hcause, hinfo]
    exact hs.notHalted hne
  · exact .of_halted hm hfl rfl (haltEvidence_haltWith_hlt hf)
  · exact .of_halted hm hfl rfl (haltEvidence_badRegister hf hb h7 hw)

/-- R71, R122: every step keeps the invariant. -/
theorem step_inv {s t : State} (hs : s.Inv) (h : step s = .next t) : t.Inv := by
  rcases step_cases s with ⟨-, e⟩ | ⟨hr, i, hf, e⟩ | ⟨-, hf, e⟩ <;> rw [e] at h
  · cases h
    exact hs
  · exact (exec_effect h).inv hs hr hf
  · cases h
    exact .of_halted hs.memWf hs.flags rfl (haltEvidence_badOpcode hf)

/-- Settles O45: a step of a running core keeps the status, or halts with the evidence of what it fetched. -/
theorem stepKeepsInvariant : Obligations.StepKeepsInvariant := fun _ _ hs h => step_inv hs h

/-! ## Moves of the host -/

/-- Everything a move of the host can do: reset, nothing, or, while IDLE, start the core or write memory. -/
theorem hostAct_cases {a : HostAction} {s t : State} (h : hostAct a s = .next t) :
    t = State.reset ∨ t = s ∨ (s.runState = .idle ∧ t = { s with runState := .running }) ∨
      (s.runState = .idle ∧ ∃ m, t = { s with mem := m } ∧ (s.mem.wf → m.wf)) := by
  cases a with
  | reset =>
    cases h
    exact .inl rfl
  | start =>
    cases h
    cases hr : s.runState with
    | idle => exact .inr (.inr (.inl ⟨rfl, by simp [hostStart, hr]⟩))
    | running | halted => exact .inr (.inl (by simp [hostStart, hr]))
  | load words =>
    cases hr : s.runState with
    | idle =>
      simp only [hostAct, hostLoad, hr] at h
      split at h
      · next hlen =>
        cases h
        refine .inr (.inr (.inr ⟨rfl, _, rfl, fun hm => memLoad_wf _ words hm ?_⟩))
        simpa using hlen
      · cases h
    | running | halted => simp [hostAct, hostLoad, hr] at h
  | memWrite addr v =>
    cases hr : s.runState with
    | idle =>
      simp only [hostAct, hostMemWrite, hr] at h
      split at h
      · next m hw =>
        cases h
        exact .inr (.inr (.inr ⟨rfl, m, rfl, fun hm => memWrite_wf hm hw⟩))
      · cases h
    | running | halted => simp [hostAct, hostMemWrite, hr] at h

/-- R144: every move of the host keeps the invariant. -/
theorem hostAct_inv {a : HostAction} {s t : State} (hs : s.Inv) (h : hostAct a s = .next t) : t.Inv := by
  rcases hostAct_cases h with rfl | rfl | ⟨hr, rfl⟩ | ⟨hr, m, rfl, hm⟩
  · exact State.reset_inv
  · exact hs
  · exact ⟨hs.memWf, hs.flags, fun _ => hs.notHalted (by simp [hr]), fun hh => by cases hh⟩
  · exact ⟨hm hs.memWf, hs.flags, hs.notHalted, fun hh => by simp [hr] at hh⟩

/-- The invariant holds in every state that a run reaches. -/
theorem Reachable.inv {s : State} (h : Reachable s) : s.Inv := by
  induction h with
  | reset => exact State.reset_inv
  | next _ tr ih =>
    cases tr with
    | core h => exact step_inv ih h
    | host a h => exact hostAct_inv ih h

end Sys2Proof.Machine
end

section
/-!
PROOFS. The layout of the flags register (10_state.md R16): who sets which bit, and that JEQ and JNE read bit 0.
-/

namespace Sys2Proof.Machine

/-- R93: the three bits that CMP sets, each by its comparison. -/
theorem compareFlags_bits (a b : Byte) :
    ((compareFlags a b).getLsbD 0 = true ↔ a.toNat = b.toNat) ∧
      ((compareFlags a b).getLsbD 1 = true ↔ b.toNat < a.toNat) ∧
      ((compareFlags a b).getLsbD 2 = true ↔ a.toNat < b.toNat) := by
  rcases compareFlags_cases a b with ⟨hab, e⟩ | ⟨hab, e⟩ | ⟨hab, e⟩ <;> rw [e]
  · simp [hab]
  · simp [hab, hab.ne', hab.not_gt]
  · simp [hab, hab.ne, hab.not_gt]

/-- R93: CMP of two registers. -/
theorem exec_cmp_of_names {ra rb : Byte} {a b : RegIndex} (ha : ra.toNat = a.val) (hb : rb.toNat = b.val) (s : State) :
    exec (.cmp ra rb) s = .next ((s.setFl (compareFlags (s.reg a) (s.reg b))).advance 3) :=
  aluInstr_of_names (op := .cmp) ha hb rfl

/-- R111: JEQ of a register. -/
theorem exec_jeq_of_names {ra : Byte} {a : RegIndex} (ha : ra.toNat = a.val) (s : State) :
    exec (.jeq ra) s = .next (if s.flE then s.jump (s.reg a) else s.advance 2) :=
  withReg_of_names ha s _

/-- R112: JNE of a register. -/
theorem exec_jne_of_names {ra : Byte} {a : RegIndex} (ha : ra.toNat = a.val) (s : State) :
    exec (.jne ra) s = .next (if s.flE then s.advance 2 else s.jump (s.reg a)) :=
  withReg_of_names ha s _

/-- No instruction sets a reserved bit. -/
theorem ExecEffect.reserved_bit_false {s t : State} {i : Instr} (h : ExecEffect s i t) {k : Nat} (hk : 3 ≤ k)
    (hs : s.fl.getLsbD k = false) : t.fl.getLsbD k = false := by
  rcases h.fl_cases with e | ⟨-, -, a, b, -, e⟩ <;> rw [e]
  · exact hs
  · exact getLsbD_of_legalFlags (legalFlags_compareFlags _ _) hk

/-- JEQ and JNE jump by bit 0, and do the same with any flags value that has the same bit 0. -/
theorem jeq_jne_read_bit_zero {ra : Byte} {a : RegIndex} (ha : ra.toNat = a.val) (s : State) (v : Byte)
    (hv : s.fl.getLsbD 0 = v.getLsbD 0) :
    ∃ t u, exec (.jeq ra) s = .next t ∧ exec (.jne ra) s = .next u ∧
      (s.fl.getLsbD 0 = true → t.pc = s.reg a) ∧ (s.fl.getLsbD 0 = false → u.pc = s.reg a) ∧
      exec (.jeq ra) (s.setFl v) = .next (t.setFl v) ∧ exec (.jne ra) (s.setFl v) = .next (u.setFl v) := by
  have hE : (s.setFl v).flE = s.flE := hv.symm
  refine ⟨_, _, exec_jeq_of_names ha s, exec_jne_of_names ha s, ?_, ?_, ?_, ?_⟩
  · intro (h : s.flE = true)
    simp [h]
  · intro (h : s.flE = false)
    simp [h]
  · rw [exec_jeq_of_names ha, hE]
    cases s.flE <;> rfl
  · rw [exec_jne_of_names ha, hE]
    cases s.flE <;> rfl

/-- Settles O58: the invariant gives reachable states a legal value, whose bits from 3 up are 0. -/
theorem flagsRegisterLayout : Obligations.FlagsRegisterLayout := by
  refine ⟨fun s hs k hk => getLsbD_of_legalFlags hs.inv.flags hk,
    fun i s t k h hk hs => (exec_effect h).reserved_bit_false hk hs,
    fun s ra rb a b ha hb => ⟨_, exec_cmp_of_names ha hb s, compareFlags_bits (s.reg a) (s.reg b)⟩,
    fun i s t h hne => ?_, fun s ra v a ha hv => jeq_jne_read_bit_zero ha s v hv⟩
  rcases (exec_effect h).fl_cases with e | ⟨ra, rb, -, -, hi, -⟩
  · exact absurd e hne
  · exact ⟨ra, rb, hi⟩

end Sys2Proof.Machine
end

section
/-!
PROOFS. A register that an instruction does not read has no influence on it (10_state.md R11).
-/

namespace Sys2Proof.Machine

theorem State.reg_setReg_of_ne (s : State) {r a : RegIndex} (v : Byte) (h : r ≠ a) :
    (s.setReg r v).reg a = s.reg a := by
  rw [State.reg_setReg, if_neg h.symm]

/-- A jump to a register commutes with a write of another one. -/
theorem State.jump_reg_setReg (s : State) {r a : RegIndex} (v : Byte) (h : r ≠ a) :
    (s.setReg r v).jump ((s.setReg r v).reg a) = (s.jump (s.reg a)).setReg r v := by
  rw [s.reg_setReg_of_ne v h]
  rfl

/-! ## A write of another register than R7 and the stack accesses commute -/

section
variable (s : State) {r : RegIndex} (v : Byte) (h7 : r ≠ 7)
include h7

theorem State.sp_setReg : (s.setReg r v).sp = s.sp := s.reg_setReg_of_ne v h7

theorem State.loadSp_setReg : (s.setReg r v).loadSp = s.loadSp := by
  unfold State.loadSp
  rw [s.sp_setReg v h7]
  rfl

theorem State.decSp_setReg : (s.setReg r v).decSp = s.decSp.setReg r v := by
  unfold State.decSp
  rw [s.sp_setReg v h7]
  exact s.setReg_comm v _ h7

theorem State.incSp_setReg : (s.setReg r v).incSp = s.incSp.setReg r v := by
  unfold State.incSp
  rw [s.sp_setReg v h7]
  exact s.setReg_comm v _ h7

theorem State.storeSp_setReg (w : Byte) : (s.setReg r v).storeSp w = (s.storeSp w).setReg r v := by
  unfold State.storeSp
  rw [s.sp_setReg v h7]
  rfl

end

/-! ## Outcomes that agree but for one register -/

/-- Two outcomes are next states that agree but for register `r`: it holds the same value in both where the
instruction writes it, and otherwise keeps the `v` it had in the second. -/
def AgreeBut (r : RegIndex) (v : Byte) (written : Bool) (o o' : Host.Outcome State Fault Refusal) : Prop :=
  ∃ t, o = .next t ∧ o' = .next (if written then t else t.setReg r v)

section
variable {r : RegIndex} {v : Byte} {written : Bool}

theorem agreeBut_of_kept {t t' : State} (hw : written = false) (h : t' = t.setReg r v) :
    AgreeBut r v written (.next t) (.next t') :=
  ⟨t, rfl, by simp [hw, h]⟩

/-- Both branches of a jump by the same bit keep `r`. -/
theorem agreeBut_ite (taken : Bool) {t t' u u' : State} (hw : written = false)
    (ht : taken = true → t' = t.setReg r v) (hu : taken = false → u' = u.setReg r v) :
    AgreeBut r v written (.next (if taken then t else u)) (.next (if taken then t' else u')) := by
  cases taken with
  | true => exact agreeBut_of_kept hw (ht rfl)
  | false => exact agreeBut_of_kept hw (hu rfl)

/-- The same value is written to `a` in both states. -/
theorem agreeBut_setReg (s : State) {a : RegIndex} (w : Byte) (hw : written = decide (r = a)) :
    AgreeBut r v written (.next (s.setReg a w)) (.next ((s.setReg r v).setReg a w)) := by
  refine ⟨_, rfl, ?_⟩
  by_cases h : r = a
  · simp [hw, h]
  · simp [hw, h, s.setReg_comm v w h]

/-- A further update that commutes with the write of `r`. -/
theorem AgreeBut.map {t t' : State} {f : State → State} (h : AgreeBut r v written (.next t) (.next t'))
    (hf : ∀ u : State, f (u.setReg r v) = (f u).setReg r v) : AgreeBut r v written (.next (f t)) (.next (f t')) := by
  obtain ⟨u, hu, hu'⟩ := h
  cases hu
  cases hu'
  cases written
  · exact agreeBut_of_kept rfl (hf t)
  · exact ⟨_, rfl, rfl⟩

/-- The operand check reads the operand byte only, and BadRegister writes no register. -/
theorem agreeBut_withReg {b : Byte} {s : State} {k k' : RegIndex → Host.Outcome State Fault Refusal}
    (hbad : isRegByte b = false → written = false)
    (h : ∀ a : RegIndex, b.toNat = a.val → AgreeBut r v written (k a) (k' a)) :
    AgreeBut r v written (withReg b s k) (withReg b (s.setReg r v) k') := by
  rcases withReg_cases b s k with ⟨a, ha, e⟩ | ⟨h7, e⟩
  · rw [e, withReg_of_names ha]
    exact h a ha
  · rw [e, withReg_of_bad h7]
    exact agreeBut_of_kept (hbad (isRegByte_false h7)) rfl

/-- R90: the ALU reads its two registers only, whatever it is asked to do. -/
theorem alu_setReg (op : AluOp) (s : State) {a b : RegIndex} (ha : r ≠ a) (hb : r ≠ b) :
    alu op a b (s.setReg r v) = (alu op a b s).map fun t => t.setReg r v := by
  cases op with
  | add | mul =>
    simp only [alu, s.reg_setReg_of_ne v ha, s.reg_setReg_of_ne v hb, s.setReg_comm v _ ha, Option.map_some]
  | cmp =>
    simp only [alu, s.reg_setReg_of_ne v ha, s.reg_setReg_of_ne v hb]
    rfl
  | other code => rfl

/-- An ALU instruction agrees where it reads two other registers than `r`. -/
theorem agreeBut_aluInstr {op : AluOp} {ra rb : Byte} {s : State}
    (hbad : (isRegByte ra && isRegByte rb) = false → written = false)
    (h : ∀ a b : RegIndex, ra.toNat = a.val → rb.toNat = b.val → (r ≠ a ∧ r ≠ b) ∧ written = false) :
    AgreeBut r v written (aluInstr op ra rb s) (aluInstr op ra rb (s.setReg r v)) := by
  refine agreeBut_withReg (fun hra => hbad (by simp [hra])) fun a ha => ?_
  refine agreeBut_withReg (fun hrb => hbad (by simp [hrb])) fun b hb => ?_
  obtain ⟨⟨hra, hrb⟩, hw⟩ := h a b ha hb
  simp only [alu_setReg op s hra hrb]
  cases alu op a b s with
  | none => exact agreeBut_of_kept hw rfl
  | some t => exact agreeBut_of_kept hw rfl

end

/-! ## Every instruction -/

theorem writesReg_of_not_wellFormed {i : Instr} (h : i.wellFormed = false) (r : RegIndex) : writesReg i r = false := by
  simp [writesReg, h]

/-- An instruction agrees but for a register outside its "reads" column. -/
theorem exec_agreeBut {i : Instr} {s : State} {r : RegIndex} (v : Byte) (h : readsReg i s r = false) :
    AgreeBut r v (writesReg i r) (exec i s) (exec i (s.setReg r v)) := by
  have hbad : i.wellFormed = false → writesReg i r = false := fun hw => writesReg_of_not_wellFormed hw r
  cases i with
  | hlt => exact agreeBut_of_kept rfl rfl
  | ret =>
    have h7 : r ≠ 7 := by simpa [readsReg, Instr.wellFormed] using h
    refine agreeBut_of_kept (by simp [writesReg, h7]) ?_
    rw [s.loadSp_setReg v h7]
    exact (s.jump s.loadSp).incSp_setReg v h7
  | push ra | call ra =>
    refine agreeBut_withReg hbad fun a ha => ?_
    obtain ⟨h7, hra⟩ : r ≠ 7 ∧ r ≠ a := by
      simpa [readsReg, Instr.wellFormed, isRegByte_of_names ha, names_eq_decide ha] using h
    refine agreeBut_of_kept (by simp [writesReg, h7]) ?_
    rw [s.decSp_setReg v h7, s.decSp.reg_setReg_of_ne v hra, s.decSp.storeSp_setReg v h7]
    rfl
  | pop ra =>
    refine agreeBut_withReg hbad fun a ha => ?_
    have h7 : r ≠ 7 := by simpa [readsReg, Instr.wellFormed, isRegByte_of_names ha] using h
    have hw : writesReg (.pop ra) r = decide (r = a) := by
      simp [writesReg, Instr.wellFormed, isRegByte_of_names ha, names_eq_decide ha, h7]
    rw [s.loadSp_setReg v h7]
    refine (agreeBut_setReg s s.loadSp hw).map (f := fun u => u.incSp.advance 2) fun u => ?_
    rw [u.incSp_setReg v h7]
    rfl
  | prn ra =>
    refine agreeBut_withReg hbad fun a ha => agreeBut_of_kept (by simp [writesReg]) ?_
    have hra : r ≠ a := by simpa [readsReg, Instr.wellFormed, isRegByte_of_names ha, names_eq_decide ha] using h
    rw [s.reg_setReg_of_ne v hra]
    rfl
  | jmp ra =>
    refine agreeBut_withReg hbad fun a ha => agreeBut_of_kept (by simp [writesReg]) (s.jump_reg_setReg v ?_)
    simpa [readsReg, Instr.wellFormed, isRegByte_of_names ha, names_eq_decide ha] using h
  | jeq ra =>
    refine agreeBut_withReg hbad fun a ha =>
      agreeBut_ite s.flE (by simp [writesReg]) (fun hE => s.jump_reg_setReg v ?_) fun _ => rfl
    simpa [readsReg, Instr.wellFormed, isRegByte_of_names ha, names_eq_decide ha, hE] using h
  | jne ra =>
    refine agreeBut_withReg hbad fun a ha =>
      agreeBut_ite s.flE (by simp [writesReg]) (fun _ => rfl) fun hE => s.jump_reg_setReg v ?_
    simpa [readsReg, Instr.wellFormed, isRegByte_of_names ha, names_eq_decide ha, hE] using h
  | ldi ra imm =>
    refine agreeBut_withReg hbad fun a ha => ?_
    have hw : writesReg (.ldi ra imm) r = decide (r = a) := by
      simp [writesReg, Instr.wellFormed, isRegByte_of_names ha, names_eq_decide ha]
    exact (agreeBut_setReg s imm hw).map (f := fun u => u.advance 3) fun _ => rfl
  | add ra rb | mul ra rb | cmp ra rb =>
    simp only [exec, execAdd, execMul, execCmp]
    refine agreeBut_aluInstr hbad fun a b ha hb => ?_
    have hne : r ≠ a ∧ r ≠ b := by
      simpa [readsReg, Instr.wellFormed, isRegByte_of_names ha, isRegByte_of_names hb, names_eq_decide ha,
        names_eq_decide hb] using h
    exact ⟨hne, by simp [writesReg, names_eq_decide ha, hne.1]⟩

/-- Settles O40: the write of an unread register commutes with the instruction, or is overwritten by it. -/
theorem unreadRegisterHasNoInfluence : Obligations.UnreadRegisterHasNoInfluence :=
  fun _ _ _ v h => exec_agreeBut v h

end Sys2Proof.Machine
end

section
/-!
PROOFS. A memory write of the core's memory and of the host port, and what the port turns away (20_memory.md R32, R44,
70_reset_and_hazards.md R144, R147).
-/

namespace Sys2Proof.Machine

/-! ## Memory writes -/

theorem memWrite_of_lt {addr : Nat} (m : Memory) (v : Byte) (h : addr < Config.memSize) :
    memWrite m addr v = some (memPut m addr v) :=
  if_pos h

theorem memWrite_of_ge {addr : Nat} (m : Memory) (v : Byte) (h : Config.memSize ≤ addr) : memWrite m addr v = none :=
  if_neg (Nat.not_lt.mpr h)

theorem memRead_memPut_same {addr : Nat} (m : Memory) (v : Byte) (h : addr < Config.memSize) :
    memRead (memPut m addr v) addr = v := by
  rw [memRead_memPut m addr addr v h, if_pos rfl]

theorem memRead_memPut_of_ne {addr b : Nat} (m : Memory) (v : Byte) (h : addr < Config.memSize) (hb : b ≠ addr) :
    memRead (memPut m addr v) b = memRead m b := by
  rw [memRead_memPut m addr b v h, if_neg hb]

/-- Settles O3: in range the write is `memPut`, which reads differently at its own address only. -/
theorem memWriteContract : Obligations.MemWriteContract := by
  intro m addr v
  refine ⟨fun hle => ?_, fun hgt => memWrite_of_ge m v hgt⟩
  have hlt : addr < Config.memSize := Nat.lt_succ_of_le hle
  exact ⟨memPut m addr v, memWrite_of_lt m v hlt, memRead_memPut_same m v hlt,
    fun _ hb => memRead_memPut_of_ne m v hlt hb⟩

/-! ## Single writes of the host, by run state -/

section
variable {s : State} {addr : Nat} (v : Byte)

theorem hostMemWrite_of_idle_of_lt (hr : s.runState = .idle) (h : addr < Config.memSize) :
    hostMemWrite addr v s = .next { s with mem := memPut s.mem addr v } := by
  simp only [hostMemWrite, hr, memWrite_of_lt s.mem v h]

theorem hostMemWrite_of_idle_of_ge (hr : s.runState = .idle) (h : Config.memSize ≤ addr) :
    hostMemWrite addr v s = .fault (.memWriteOutOfRange addr) := by
  simp only [hostMemWrite, hr, memWrite_of_ge s.mem v h]

theorem hostMemWrite_of_running (hr : s.runState = .running) :
    hostMemWrite addr v s = .fault .hostAccessWhileRunning := by
  simp only [hostMemWrite, hr]

theorem hostMemWrite_of_halted (hr : s.runState = .halted) : hostMemWrite addr v s = .refused .memWriteHalted := by
  simp only [hostMemWrite, hr]

end

/-- Settles O50: the next state is the state with `memPut` of the word, all other fields being its own. -/
theorem hostWriteWhileIdle : Obligations.HostWriteWhileIdle := by
  intro s addr v hr hle
  have hlt : addr < Config.memSize := Nat.lt_succ_of_le hle
  exact ⟨{ s with mem := memPut s.mem addr v }, hostMemWrite_of_idle_of_lt v hr hlt, memRead_memPut_same s.mem v hlt,
    fun _ hb => memRead_memPut_of_ne s.mem v hlt hb, fun _ _ => rfl, rfl, rfl, rfl, rfl, rfl, rfl⟩

/-! ## Loads that the host port refuses -/

theorem hostLoad_of_not_idle {s : State} (words : List Byte) (hr : s.runState ≠ .idle) :
    hostLoad words s = .refused .loadNotIdle := by
  cases h : s.runState with
  | idle => exact absurd h hr
  | running | halted => simp only [hostLoad, h]

theorem hostLoad_of_too_long {s : State} {words : List Byte} (hr : s.runState = .idle)
    (hlen : Config.memSize < words.length) : hostLoad words s = .refused (.loadTooLong words.length) := by
  simp only [hostLoad, hr, if_neg (Nat.not_le.mpr hlen)]

/-- Settles O49: each answer is the one of the load or of the single write in that run state. -/
theorem hostPortRefusals : Obligations.HostPortRefusals :=
  ⟨fun _ words hr => hostLoad_of_not_idle words hr, fun _ _ hr hlen => hostLoad_of_too_long hr hlen,
    fun _ _ v hr hgt => hostMemWrite_of_idle_of_ge v hr hgt, fun _ _ v hr => hostMemWrite_of_running v hr,
    fun _ _ v hr => hostMemWrite_of_halted v hr⟩

/-! ## Reads of the host, by run state -/

theorem hostRead_of_not_running {s : State} (v : Byte) (hr : s.runState ≠ .running) : hostRead s v = .ok v := by
  cases h : s.runState with
  | running => exact absurd h hr
  | idle | halted => simp only [hostRead, h]

theorem hostRead_of_running {s : State} (v : Byte) (hr : s.runState = .running) :
    hostRead s v = .error .hostAccessWhileRunning := by
  simp only [hostRead, hr]

/-- Settles O35: the four reads are one `hostRead` each, and the output is a suffix of the events. -/
theorem hostReadsByRunState : Obligations.HostReadsByRunState := by
  refine ⟨fun s addr r hr => ?_, fun s addr r hr => ?_, fun s n => ⟨rfl, (List.take_append_drop n s.out).symm⟩⟩
  · have hread : ∀ v, hostRead s v = .ok v := fun v => hostRead_of_not_running v hr
    refine ⟨hread _, fun hgt => ?_, hread _, hread _, hread _⟩
    rw [hostMemRead, memRead_out_of_range s.mem addr hgt, hread]
  · have hread : ∀ v, hostRead s v = .error .hostAccessWhileRunning := fun v => hostRead_of_running v hr
    exact ⟨hread _, hread _, hread _, hread _⟩

end Sys2Proof.Machine
end

section
/-!
PROOFS. The decoder and the encoder (30_encoding.md R50 to R60): bytes decode to an instruction exactly when they begin
with its encoding. The opcode table and the words of the table follow.
-/

namespace Sys2Proof

/-! ## The opcode map -/

/-- R56: a byte that is the opcode of no operation selects none. -/
theorem decodeOpcode_eq_none {op : Byte} (h : op ∉ Opcode.all.map Opcode.code) : decodeOpcode op = none := by
  refine List.find?_eq_none.mpr fun k hk hc => h ?_
  exact List.mem_map.mpr ⟨k, hk, eq_of_beq hc⟩

/-- Settles O7: each row is an opcode's own code, and the 13 bytes are the codes of all opcodes. -/
theorem opcodeMapIsTheTable : Obligations.OpcodeMapIsTheTable :=
  ⟨decodeOpcode_code .hlt, decodeOpcode_code .ret, decodeOpcode_code .push, decodeOpcode_code .pop,
    decodeOpcode_code .prn, decodeOpcode_code .call, decodeOpcode_code .jmp, decodeOpcode_code .jeq,
    decodeOpcode_code .jne, decodeOpcode_code .ldi, decodeOpcode_code .add, decodeOpcode_code .mul,
    decodeOpcode_code .cmp, fun _ h => decodeOpcode_eq_none h⟩

/-! ## Decoding inverts encoding -/

/-- What is taken is the operation's own instruction, and its operand bytes are what was there before the rest. -/
theorem eq_operandBytes_of_takeOperands {k : Opcode} {bytes rest : List Byte} {i : Instr}
    (h : takeOperands k bytes = .ok (i, rest)) : i.opcode = k ∧ bytes = i.operandBytes ++ rest := by
  unfold takeOperands at h
  split at h
  · next h0 => cases h; simp [Opcode.build_operandBytes, h0]
  · next h1 => cases h; simp [Opcode.build_operandBytes, h1]
  · next h2 => cases h; simp [Opcode.build_operandBytes, h2]
  · cases h

theorem takeOperands_operandBytes (i : Instr) (rest : List Byte) :
    takeOperands i.opcode (i.operandBytes ++ rest) = .ok (i, rest) := by
  cases i <;> rfl

theorem decode_encode_append (i : Instr) (rest : List Byte) : decode (encode i ++ rest) = .ok (i, rest) := by
  simp only [encode, List.cons_append, decode, decodeOpcode_code, takeOperands_operandBytes]

theorem eq_encode_append_of_decode {bytes rest : List Byte} {i : Instr} (h : decode bytes = .ok (i, rest)) :
    bytes = encode i ++ rest := by
  cases bytes with
  | nil => cases h
  | cons op tail =>
    cases hk : decodeOpcode op with
    | none => simp only [decode, hk] at h; cases h
    | some k =>
      simp only [decode, hk] at h
      obtain ⟨rfl, rfl⟩ := eq_operandBytes_of_takeOperands h
      rw [encode, decodeOpcode_eq_some hk, List.cons_append]

/-- Settles O9: the opcode byte fixes the operation, and the operation how many operand bytes are taken. -/
theorem decodeInvertsEncode : Obligations.DecodeInvertsEncode := by
  intro bytes rest i
  exact ⟨eq_encode_append_of_decode, fun h => h ▸ decode_encode_append i rest⟩

/-- Bytes decode to an instruction, whatever is left, exactly when they begin with its encoding. -/
theorem exists_decode_iff_isPrefix {bytes : List Byte} {i : Instr} :
    (∃ rest, decode bytes = .ok (i, rest)) ↔ encode i <+: bytes :=
  exists_congr fun rest => (decodeInvertsEncode bytes rest i).trans eq_comm

/-- Settles O8: each accepted word is the encoding of its instruction and what follows, and 0xA1 is no opcode. -/
theorem writtenWordsDecode : Obligations.WrittenWordsDecode :=
  ⟨decode_encode_append .hlt [], decode_encode_append .ret [0xFF#8], decode_encode_append (.push 0x02#8) [],
    decode_encode_append (.prn 0x07#8) [0x01#8], decode_encode_append (.jne 0x03#8) [],
    decode_encode_append (.ldi 0x00#8 0x08#8) [], decode_encode_append (.mul 0x00#8 0x01#8) [], rfl⟩

/-! ## Words of the opcode table -/

/-- The number whose bytes, the first least significant, are the given ones. -/
def wordOfBytes (bs : List Byte) : Nat := bs.foldr (fun b n => b.toNat + 256 * n) 0

theorem wordOfBytes_cons (b : Byte) (bs : List Byte) : wordOfBytes (b :: bs) = b.toNat + 256 * wordOfBytes bs := rfl

theorem wordOfBytes_lt (bs : List Byte) : wordOfBytes bs < 2 ^ (8 * bs.length) := by
  induction bs with
  | nil => exact Nat.one_pos
  | cons b bs ih =>
    have hb := b.isLt
    rw [wordOfBytes_cons, List.length_cons, Nat.mul_succ, Nat.pow_add]
    omega

theorem ofNat_wordOfBytes_div (bs : List Byte) (k : Nat) (hk : k < bs.length) :
    BitVec.ofNat 8 (wordOfBytes bs / 256 ^ k) = bs[k] := by
  induction bs generalizing k with
  | nil => cases hk
  | cons b bs ih =>
    have hb := b.isLt
    rw [wordOfBytes_cons]
    cases k with
    | zero => apply BitVec.eq_of_toNat_eq; simp; omega
    | succ k =>
      have hdiv : (b.toNat + 256 * wordOfBytes bs) / 256 = wordOfBytes bs := by omega
      rw [Nat.pow_succ', ← Nat.div_div_eq_div_mul, hdiv]
      exact ih k (Nat.lt_of_succ_lt_succ hk)

/-- R50: an encoding is the opcode byte and the operand bytes of its format. -/
theorem encode_length (i : Instr) : (encode i).length = i.length := by
  simp [encode, Instr.length, Nat.add_comm]

/-- R50: no encoding is longer than the three bytes fetched. -/
theorem encode_length_le_three (i : Instr) : (encode i).length ≤ 3 := by
  have h := Machine.Opcode.arity_le_two i.opcode
  rw [encode_length, Instr.length]
  omega

/-- The word of at most three bytes has those bytes first. -/
theorem isPrefix_tableBytes_wordOfBytes {bs : List Byte} (h : bs.length ≤ 3) :
    bs <+: tableBytes (8 * bs.length) (wordOfBytes bs) := by
  refine List.prefix_iff_getElem.mpr ⟨h, fun k hk => ?_⟩
  rw [← ofNat_wordOfBytes_div bs k hk]
  have hk3 : k < 3 := by omega
  simp only [tableBytes, Nat.mod_eq_of_lt (wordOfBytes_lt bs)]
  match k, hk3 with
  | 0, _ => simp
  | 1, _ => rfl
  | 2, _ => rfl

theorem encode_isPrefix_tableBytes (i : Instr) :
    encode i <+: tableBytes (8 * i.length) (wordOfBytes (encode i)) := by
  rw [← encode_length i]
  exact isPrefix_tableBytes_wordOfBytes (encode_length_le_three i)

theorem decodeTableWord_of_isPrefix {nbits w : Nat} {i : Instr} (h : encode i <+: tableBytes nbits w) :
    decodeTableWord nbits w = some i := by
  obtain ⟨rest, hd⟩ := exists_decode_iff_isPrefix.mpr h
  simp only [decodeTableWord, hd]

end Sys2Proof
end

section
/-!
PROOFS. Fetch and step (30_encoding.md R52 to R59, 40_execution_engine.md R71 to R75): a RUNNING core executes the
instruction whose encoding stands at pc, halts on an unrecognized opcode, and on a register operand byte above 7.
-/

namespace Sys2Proof.Machine

/-! ## The instruction at pc -/

theorem State.fetchInstr_iff_isPrefix {s : State} {i : Instr} : s.fetchInstr = some i ↔ encode i <+: s.fetchBytes :=
  (s.fetchInstr_eq_decode i).trans exists_decode_iff_isPrefix

theorem State.getElem_fetchBytes (s : State) (k : Nat) (hk : k < s.fetchBytes.length) :
    s.fetchBytes[k] = s.codeByte k := by
  match k, hk with
  | 0, _ => exact s.fetchByte_eq_codeByte 0
  | 1, _ => exact s.fetchByte_eq_codeByte 1
  | 2, _ => exact s.fetchByte_eq_codeByte 2

/-- Settles O12: at most three bytes are compared, and the fetched three begin with the encoding. -/
theorem stepRunsEncodedInstruction : Obligations.StepRunsEncodedInstruction := by
  intro s i hr hbytes
  refine step_of_fetched hr (State.fetchInstr_iff_isPrefix.mpr ?_)
  refine List.prefix_iff_getElem.mpr ⟨encode_length_le_three i, fun k hk => ?_⟩
  rw [s.getElem_fetchBytes, hbytes k hk]

/-! ## A word of the opcode table placed at pc -/

@[simp] theorem State.placeBytes_pc (s : State) (a : Byte) (bs : List Byte) : (s.placeBytes a bs).pc = s.pc := by
  induction bs generalizing s a with
  | nil => rfl
  | cons b bs ih => exact ih (s.store a b) (a + 1#8)

/-- Three bytes placed at pc are the bytes fetched there: their addresses differ modulo 256. -/
theorem State.fetchBytes_placeBytes (s : State) (b0 b1 b2 : Byte) :
    (s.placeBytes s.pc [b0, b1, b2]).fetchBytes = [b0, b1, b2] := by
  have h01 : s.pc ≠ s.pc + 1#8 := by bv_omega
  have h02 : s.pc ≠ s.pc + 1#8 + 1#8 := by bv_omega
  have h12 : s.pc + 1#8 ≠ s.pc + 1#8 + 1#8 := by bv_omega
  have h2 : s.pc + 2#8 = s.pc + 1#8 + 1#8 := by bv_omega
  simp [State.fetchBytes, State.fetchByte, State.placeBytes, h01, h02, h12, h2]

theorem State.fetchBytes_withFetchWord (s : State) (nbits w : Nat) :
    (s.withFetchWord nbits w).fetchBytes = tableBytes nbits w :=
  s.fetchBytes_placeBytes _ _ _

/-- Settles O10: the word's bytes begin with the encoding, for the decoder and where they are placed. -/
theorem tableWordRunsAsNextInstruction : Obligations.TableWordRunsAsNextInstruction := by
  intro i s
  have hp := encode_isPrefix_tableBytes i
  refine ⟨decodeTableWord_of_isPrefix hp, step_of_fetched rfl (State.fetchInstr_iff_isPrefix.mpr ?_)⟩
  rwa [State.fetchBytes_withFetchWord]

/-! ## An unrecognized opcode -/

theorem step_of_unrecognized {s : State} (hr : s.runState = .running) (h : decodeOpcode (s.codeByte 0) = none) :
    step s = .next (takeException (.badOpcode (s.codeByte 0)) s) := by
  rw [← s.fetchByte_eq_codeByte] at h ⊢
  simp only [step, hr, s.fetchInstr_eq_none.mpr h]

/-- The register file, written out. -/
theorem State.x_eq_regs (s : State) :
    s.x = #v[s.reg 0, s.reg 1, s.reg 2, s.reg 3, s.reg 4, s.reg 5, s.reg 6, s.reg 7] :=
  Vector.ext fun r hr => by
    match r, hr with
    | 0, _ | 1, _ | 2, _ | 3, _ | 4, _ | 5, _ | 6, _ | 7, _ => rfl

/-- R122: the ten values of the diagnostic, by number. -/
theorem State.diagnostic_eq (s : State) :
    s.diagnostic = .badInstruction s.pc (s.codeByte 1) (s.codeByte 2)
      #v[s.reg 0, s.reg 1, s.reg 2, s.reg 3, s.reg 4, s.reg 5, s.reg 6, s.reg 7] := by
  rw [← s.x_eq_regs, ← s.fetchByte_eq_codeByte, ← s.fetchByte_eq_codeByte]
  rfl

/-- Settles O13: BadOpcode is taken, which appends the diagnostic and keeps the program state. -/
theorem unrecognizedOpcodeReportsAndHalts : Obligations.UnrecognizedOpcodeReportsAndHalts := by
  intro s hr hop
  refine ⟨_, step_of_unrecognized hr (decodeOpcode_eq_none hop), ⟨rfl, rfl, rfl⟩,
    takeException_sameProgramState _ s, ?_⟩
  rw [takeException_out, CoreException.report, s.diagnostic_eq]

/-! ## Register operand bytes -/

/-- Settles O6: `RegIdx` is the byte's own value, where that is an index. -/
theorem registerOperandByteNamesItsIndex : Obligations.RegisterOperandByteNamesItsIndex := by
  intro b
  refine ⟨fun h => ?_, regIdx_eq_none.mpr⟩
  exact ⟨⟨b.toNat, Nat.lt_succ_of_le h⟩, regIdx_eq_some.mpr rfl, rfl⟩

/-- The first byte, in operand order, that names no register. -/
def firstBad (bs : List Byte) : Option Byte := bs.find? fun c => decide (7 < c.toNat)

theorem firstBad_cons_of_bad {b : Byte} (h : 7 < b.toNat) (bs : List Byte) : firstBad (b :: bs) = some b :=
  List.find?_cons_of_pos (decide_eq_true h)

theorem firstBad_cons_of_le {b : Byte} (h : b.toNat ≤ 7) (bs : List Byte) : firstBad (b :: bs) = firstBad bs :=
  List.find?_cons_of_neg (by simpa using h)

theorem withReg_of_firstBad {ra b : Byte} (h : firstBad [ra] = some b) (s : State)
    (k : RegIndex → Host.Outcome State Fault Refusal) : withReg ra s k = .next (takeException (.badRegister b) s) := by
  rcases Nat.lt_or_ge 7 ra.toNat with ha | ha
  · rw [firstBad_cons_of_bad ha] at h
    cases h
    exact withReg_of_bad ha s k
  · rw [firstBad_cons_of_le ha] at h
    cases h

theorem withRegs_of_firstBad {ra rb b : Byte} (h : firstBad [ra, rb] = some b) (s : State)
    (k : RegIndex → RegIndex → Host.Outcome State Fault Refusal) :
    withRegs ra rb s k = .next (takeException (.badRegister b) s) := by
  rcases Nat.lt_or_ge 7 ra.toNat with ha | ha
  · rw [firstBad_cons_of_bad ha] at h
    cases h
    exact withReg_of_bad ha s _
  · rw [firstBad_cons_of_le ha] at h
    have hpass := withReg_of_names (r := ⟨ra.toNat, Nat.lt_succ_of_le ha⟩) rfl s fun a => withReg rb s fun b => k a b
    exact hpass.trans (withReg_of_firstBad h s _)

/-- R74, R123: the operand check comes before every effect, also before the test of JEQ and JNE. -/
theorem exec_of_firstBad {i : Instr} {b : Byte} (h : firstBad (registerOperands i) = some b) (s : State) :
    exec i s = .next (takeException (.badRegister b) s) := by
  cases i with
  | hlt | ret => cases h
  | push | pop | prn | call | jmp | jeq | jne | ldi => exact withReg_of_firstBad h s _
  | add | mul | cmp => exact withRegs_of_firstBad h s _

/-- Settles O29: BadRegister of the first such byte is the whole effect, and it has no event. -/
theorem badRegisterOperandHaltsFirst : Obligations.BadRegisterOperandHaltsFirst := by
  intro i s b h
  exact ⟨_, exec_of_firstBad h s, ⟨rfl, rfl, rfl⟩, takeException_sameProgramState _ s, List.append_nil s.out⟩

/-! ## Immediates and targets (R54) -/

/-- R85: LDI of a register. -/
theorem exec_ldi_of_names {ra : Byte} {a : RegIndex} (ha : ra.toNat = a.val) (imm : Byte) (s : State) :
    exec (.ldi ra imm) s = .next ((s.setReg a imm).advance 3) :=
  withReg_of_names ha s _

/-- R110: JMP of a register. -/
theorem exec_jmp_of_names {ra : Byte} {a : RegIndex} (ha : ra.toNat = a.val) (s : State) :
    exec (.jmp ra) s = .next (s.jump (s.reg a)) :=
  withReg_of_names ha s _

/-- R105: CALL of a register, which is read after the decrement. -/
theorem exec_call_of_names {ra : Byte} {a : RegIndex} (ha : ra.toNat = a.val) (s : State) :
    exec (.call ra) s = .next ((s.decSp.storeSp (s.pc + 2#8)).jump (s.decSp.reg a)) :=
  withReg_of_names ha s _

/-- Below the top of memory a code byte's address is not wrapped. -/
theorem State.codeByte_of_le {s : State} {k : Nat} (h : s.pc.toNat + k ≤ 255) :
    s.codeByte k = memRead s.mem (s.pc.toNat + k) := by
  rw [State.codeByte, Nat.mod_eq_of_lt (Nat.lt_succ_of_le h)]

theorem State.fetchInstr_of_ldi_code {s : State} (h : s.codeByte 0 = Opcode.ldi.code) :
    s.fetchInstr = some (.ldi (s.codeByte 1) (s.codeByte 2)) := by
  simp only [State.fetchInstr, State.fetchByte_eq_codeByte, h, decodeOpcode_code, Opcode.build]

/-- Every register operand byte is an operand byte, and only LDI has another one. -/
theorem registerOperands_eq_operandBytes {i : Instr} (h : ∀ ra imm, i ≠ .ldi ra imm) :
    registerOperands i = i.operandBytes := by
  cases i with
  | ldi ra imm => exact absurd rfl (h ra imm)
  | hlt | ret | push | pop | prn | call | jmp | jeq | jne | add | mul | cmp => rfl

/-- A RUNNING core with LDI at pc loads operand byte 2. -/
theorem step_loads_immediate {s : State} {a : RegIndex} (hr : s.runState = .running)
    (hop : s.codeByte 0 = Opcode.ldi.code) (ha : (s.codeByte 1).toNat = a.val) :
    ∃ t, step s = .next t ∧ t.reg a = s.codeByte 2 := by
  refine ⟨_, (step_of_fetched hr (s.fetchInstr_of_ldi_code hop)).trans (exec_ldi_of_names ha _ s), ?_⟩
  rw [State.advance_reg, State.reg_setReg, if_pos rfl]

/-- CALL goes to the register's address; that of R7 is the decremented stack pointer. -/
theorem call_goes_to_register {ra : Byte} {a : RegIndex} (ha : ra.toNat = a.val) (s : State) :
    ∃ t, exec (.call ra) s = .next t ∧ (a ≠ 7 → t.pc = s.reg a) ∧ (a = 7 → t.pc = s.sp ∨ t.pc = t.sp) := by
  refine ⟨_, exec_call_of_names ha s, fun hne => ?_, ?_⟩
  · rw [State.jump_pc, State.decSp_reg, if_neg hne]
  · rintro rfl
    exact .inr rfl

/-- Settles O59: below the top the three bytes of LDI are at pc to pc + 2, and each target is the register's value. -/
theorem onlyLdiHasAnImmediate : Obligations.OnlyLdiHasAnImmediate := by
  refine ⟨fun s a hr htop hop ha => ?_, fun i h => registerOperands_eq_operandBytes h, fun s ra a ha => ?_⟩
  · have h0 : s.codeByte 0 = Opcode.ldi.code := (State.codeByte_of_le (by omega)).trans hop
    rw [← State.codeByte_of_le (by omega)] at ha
    obtain ⟨t, hstep, hreg⟩ := step_loads_immediate hr h0 ha
    exact ⟨t, hstep, by rw [hreg, State.codeByte_of_le htop]⟩
  · refine ⟨⟨_, exec_jmp_of_names ha s, rfl⟩, call_goes_to_register ha s,
      fun (hE : s.flE = true) => ⟨_, exec_jeq_of_names ha s, ?_⟩,
      fun (hE : s.flE = false) => ⟨_, exec_jne_of_names ha s, ?_⟩⟩
    · rw [if_pos hE, State.jump_pc]
    · simp [hE]

end Sys2Proof.Machine
end

section
/-!
PROOFS. The execution engine (40_execution_engine.md R70 to R79): when a step is taken, which instruction it executes, and
how a step ends a run.
-/

namespace Sys2Proof.Machine

/-! ## The bytes a step fetches -/

theorem State.fetchBytes_eq_codeBytes (s : State) : s.fetchBytes = [s.codeByte 0, s.codeByte 1, s.codeByte 2] := by
  simp only [State.fetchBytes, State.fetchByte_eq_codeByte]

/-- The operand bytes of the fetched instruction are among the two bytes after its opcode. -/
theorem State.operandByte_of_fetched {s : State} {i : Instr} {b : Byte} (hf : s.fetchInstr = some i)
    (hb : b ∈ i.operandBytes) : b = s.codeByte 1 ∨ b = s.codeByte 2 := by
  have hp : i.opcode.code :: i.operandBytes <+: [s.codeByte 0, s.codeByte 1, s.codeByte 2] :=
    s.fetchBytes_eq_codeBytes ▸ State.fetchInstr_iff_isPrefix.mp hf
  simpa using (List.cons_prefix_cons.mp hp).2.subset hb

theorem State.codeByte_zero_of_fetched {s : State} {i : Instr} (hf : s.fetchInstr = some i) :
    s.codeByte 0 = i.opcode.code :=
  (s.fetchByte_eq_codeByte 0).symm.trans (s.fetchByte_zero_of_fetched hf)

/-! ## Which step is taken -/

/-- Settles O14: only a RUNNING core fetches. -/
theorem noStepOutsideRunning : Obligations.NoStepOutsideRunning := by
  intro s hr
  rcases step_cases s with ⟨-, e⟩ | ⟨hrun, -⟩ | ⟨hrun, -⟩
  · exact e
  · exact absurd hrun hr
  · exact absurd hrun hr

/-- Settles O11: the three bytes at pc are the ones fetched, so what they decode to is the fetched instruction. -/
theorem stepRunsDecodedInstruction : Obligations.StepRunsDecodedInstruction := by
  intro s i rest hr hdec
  rw [← s.fetchBytes_eq_codeBytes] at hdec
  exact step_of_fetched hr ((s.fetchInstr_eq_decode i).mpr ⟨rest, hdec⟩)

/-! ## How a step ends a run -/

/-- Settles O33: an instruction keeps the status unless it is HLT or has a bad register operand, whose bytes are
fetched after the opcode; where nothing is fetched, the opcode byte is unrecognized. -/
theorem stepHaltsOnlyByHltOrFault : Obligations.StepHaltsOnlyByHltOrFault := by
  intro s t hr hc h
  rcases step_cases s with ⟨hn, -⟩ | ⟨-, i, hf, e⟩ | ⟨-, hf, -⟩
  · exact absurd hr hn
  · rcases (exec_effect (e.symm.trans h)).status_cases with ⟨hrun, hcause, -⟩ | ⟨rfl, rfl⟩ | ⟨b, hb, h7, -, rfl⟩
    · exact .inl ⟨hrun.trans hr, hcause.trans hc⟩
    · exact .inr (.inl ⟨⟨rfl, rfl, rfl⟩, State.codeByte_zero_of_fetched hf, rfl⟩)
    · have hfrom := State.operandByte_of_fetched hf (mem_operandBytes_of_mem_registerOperands hb)
      exact .inr (.inr (.inr ⟨rfl, rfl, h7, hfrom, rfl⟩))
  · have hop : decodeOpcode (s.codeByte 0) = none := s.fetchByte_eq_codeByte 0 ▸ s.fetchInstr_eq_none.mp hf
    cases (step_of_unrecognized hr hop).symm.trans h
    exact .inr (.inr (.inl ⟨⟨rfl, rfl, rfl⟩, hop, rfl⟩))

end Sys2Proof.Machine
end

section
/-!
PROOFS. Data movement and printed values (41_data_movement.md R85 to R87).
-/

namespace Sys2Proof.Machine

/-! ## LDI and PRN -/

/-- A write of one register keeps every other one. -/
theorem State.sameRegsBut_setReg (s : State) (r : RegIndex) (v : Byte) : s.SameRegsBut (s.setReg r v) [r] := by
  intro r' hr'
  rw [State.reg_setReg, if_neg (List.ne_of_not_mem_cons hr')]

/-- Settles O16: the next state is the write of the register and pc + 3. -/
theorem ldiLoadsImmediate : Obligations.LdiLoadsImmediate := by
  intro s ra imm a ha
  refine ⟨_, exec_ldi_of_names ha imm s, ?_, s.sameRegsBut_setReg a imm, State.advance_pc_toNat _ 3, rfl,
    fun _ => rfl, rfl, rfl, rfl, rfl⟩
  rw [State.advance_reg, State.reg_setReg, if_pos rfl]

/-- R86: PRN of a register. -/
theorem exec_prn_of_names {ra : Byte} {a : RegIndex} (ha : ra.toNat = a.val) (s : State) :
    exec (.prn ra) s = .next ((s.emit (.print (s.reg a))).advance 2) :=
  withReg_of_names ha s _

/-- Settles O17: the next state is the appended event and pc + 2. -/
theorem prnEmitsRegister : Obligations.PrnEmitsRegister := by
  intro s ra a ha
  exact ⟨_, exec_prn_of_names ha s, rfl, fun _ _ => rfl, State.advance_pc_toNat _ 2, rfl, fun _ => rfl, rfl, rfl, rfl⟩

/-! ## Printed values -/

/-- The digits of a value, by how many it has. -/
theorem decimalDigits_cases (v : Byte) :
    (v.toNat < 10 ∧ decimalDigits v = [v.toNat]) ∨
      (10 ≤ v.toNat ∧ v.toNat < 100 ∧ decimalDigits v = [v.toNat / 10, v.toNat % 10]) ∨
      (100 ≤ v.toNat ∧ decimalDigits v = [v.toNat / 100, v.toNat / 10 % 10, v.toNat % 10]) := by
  rcases Nat.lt_or_ge v.toNat 10 with h10 | h10
  · exact .inl ⟨h10, if_pos h10⟩
  · have hne : ¬ v.toNat < 10 := Nat.not_lt.mpr h10
    rcases Nat.lt_or_ge v.toNat 100 with h100 | h100
    · exact .inr (.inl ⟨h10, h100, (if_neg hne).trans (if_pos h100)⟩)
    · exact .inr (.inr ⟨h100, (if_neg hne).trans (if_neg (Nat.not_lt.mpr h100))⟩)

/-- Settles O54: a single digit is the value; of two or three, the first is the quotient by 10 or 100, which is not 0. -/
theorem printedNumeralHasNoLeadingZero : Obligations.PrintedNumeralHasNoLeadingZero := by
  intro v
  have hv := v.isLt
  rcases decimalDigits_cases v with ⟨hlt, e⟩ | ⟨hge, hlt, e⟩ | ⟨hge, e⟩ <;> rw [e]
  · simp [hlt]
  · have hlead : v.toNat / 10 ≠ 0 := by omega
    have htens : v.toNat / 10 < 10 := by omega
    refine ⟨?_, by simp [htens, Nat.mod_lt], by simp [hlead]⟩
    simp only [List.foldl]
    omega
  · have hlead : v.toNat / 100 ≠ 0 := by omega
    have hhundreds : v.toNat / 100 < 10 := by omega
    refine ⟨?_, by simp [hhundreds, Nat.mod_lt], by simp [hlead]⟩
    simp only [List.foldl]
    omega

end Sys2Proof.Machine
end

section
/-!
PROOFS. The ALU and its instructions (42_alu.md R90 to R95): ADD, MUL and CMP by number, all that the ALU can write, and
the exception for a selector it does not have.
-/

namespace Sys2Proof.Machine

/-! ## The ALU block -/

/-- R90: everything the ALU can answer. -/
theorem alu_cases {op : AluOp} {a b : RegIndex} {s t : State} (h : alu op a b s = some t) :
    (op = .add ∧ t = s.setReg a (addBytes (s.reg a) (s.reg b))) ∨
      (op = .mul ∧ t = s.setReg a (mulBytes (s.reg a) (s.reg b))) ∨
      (op = .cmp ∧ t = s.setFl (compareFlags (s.reg a) (s.reg b))) := by
  cases op with
  | add => cases h; exact .inl ⟨rfl, rfl⟩
  | mul => cases h; exact .inr (.inl ⟨rfl, rfl⟩)
  | cmp => cases h; exact .inr (.inr ⟨rfl, rfl⟩)
  | other code => cases h

/-- Settles O31: an answer of the ALU is one write of `x[a]`, by ADD or MUL, or one write of `fl`, by CMP. -/
theorem aluTouchesOnlyItsResult : Obligations.AluTouchesOnlyItsResult := by
  intro op a b s t h
  rcases alu_cases h with ⟨rfl, rfl⟩ | ⟨rfl, rfl⟩ | ⟨rfl, rfl⟩
  · exact ⟨rfl, fun _ => rfl, rfl, ⟨rfl, rfl, rfl⟩, .inl ⟨.inl rfl, s.sameRegsBut_setReg a _, rfl⟩⟩
  · exact ⟨rfl, fun _ => rfl, rfl, ⟨rfl, rfl, rfl⟩, .inl ⟨.inr rfl, s.sameRegsBut_setReg a _, rfl⟩⟩
  · exact ⟨rfl, fun _ => rfl, rfl, ⟨rfl, rfl, rfl⟩, .inr ⟨rfl, fun _ _ => rfl⟩⟩

/-! ## The sum and the product by number (R95) -/

theorem addBytes_toNat (a b : Byte) : (addBytes a b).toNat = (a.toNat + b.toNat) % 256 :=
  BitVec.toNat_ofNat (a.toNat + b.toNat) 8

theorem mulBytes_toNat (a b : Byte) : (mulBytes a b).toNat = (a.toNat * b.toNat) % 256 :=
  BitVec.toNat_ofNat (a.toNat * b.toNat) 8

/-! ## ADD, MUL and CMP -/

/-- R91: ADD of two registers. -/
theorem exec_add_of_names {ra rb : Byte} {a b : RegIndex} (ha : ra.toNat = a.val) (hb : rb.toNat = b.val) (s : State) :
    exec (.add ra rb) s = .next ((s.setReg a (addBytes (s.reg a) (s.reg b))).advance 3) :=
  aluInstr_of_names (op := .add) ha hb rfl

/-- R92: MUL of two registers. -/
theorem exec_mul_of_names {ra rb : Byte} {a b : RegIndex} (ha : ra.toNat = a.val) (hb : rb.toNat = b.val) (s : State) :
    exec (.mul ra rb) s = .next ((s.setReg a (mulBytes (s.reg a) (s.reg b))).advance 3) :=
  aluInstr_of_names (op := .mul) ha hb rfl

theorem State.reg_setReg_advance (s : State) (a : RegIndex) (v : Byte) (n : Nat) :
    ((s.setReg a v).advance n).reg a = v := by
  rw [State.advance_reg, State.reg_setReg, if_pos rfl]

/-- What a write of `x[a]` and the advance by `n` leave as it was, and pc. -/
theorem State.setReg_advance_frame (s : State) (a : RegIndex) (v : Byte) (n : Nat) :
    s.SameRegsBut ((s.setReg a v).advance n) [a] ∧ ((s.setReg a v).advance n).pc.toNat = (s.pc.toNat + n) % 256 ∧
      ((s.setReg a v).advance n).fl = s.fl ∧ s.SameMemory ((s.setReg a v).advance n) ∧
      ((s.setReg a v).advance n).out = s.out ∧ s.SameStatus ((s.setReg a v).advance n) :=
  ⟨s.sameRegsBut_setReg a v, State.advance_pc_toNat _ n, rfl, fun _ => rfl, rfl, rfl, rfl, rfl⟩

/-- Settles O18: the next state is the write of the sum to `x[a]` and pc + 3. -/
theorem addKeepsLowByteOfSum : Obligations.AddKeepsLowByteOfSum := by
  intro s ra rb a b ha hb
  refine ⟨_, exec_add_of_names ha hb s, ?_, s.setReg_advance_frame a _ 3⟩
  rw [State.reg_setReg_advance, addBytes_toNat]

/-- Settles O19: the next state is the write of the product to `x[a]` and pc + 3. -/
theorem mulKeepsLowByteOfProduct : Obligations.MulKeepsLowByteOfProduct := by
  intro s ra rb a b ha hb
  refine ⟨_, exec_mul_of_names ha hb s, ?_, s.setReg_advance_frame a _ 3⟩
  rw [State.reg_setReg_advance, mulBytes_toNat]

/-- R93: the flags of each of the three comparisons. -/
theorem compareFlags_values (a b : Byte) :
    (a.toNat = b.toNat → compareFlags a b = 0x01#8) ∧ (b.toNat < a.toNat → compareFlags a b = 0x02#8) ∧
      (a.toNat < b.toNat → compareFlags a b = 0x04#8) := by
  rcases compareFlags_cases a b with ⟨heq, e⟩ | ⟨hgt, e⟩ | ⟨hlt, e⟩
  · exact ⟨fun _ => e, fun h => absurd heq h.ne', fun h => absurd heq h.ne⟩
  · exact ⟨fun h => absurd h hgt.ne', fun _ => e, fun h => absurd h hgt.not_gt⟩
  · exact ⟨fun h => absurd h hlt.ne, fun h => absurd h hlt.not_gt, fun _ => e⟩

/-- Settles O20: the next state is the write of `fl`, by the comparison of the two values, and pc + 3. -/
theorem cmpSetsExactlyOneFlag : Obligations.CmpSetsExactlyOneFlag := by
  intro s ra rb a b ha hb
  obtain ⟨heq, hgt, hlt⟩ := compareFlags_values (s.reg a) (s.reg b)
  exact ⟨_, exec_cmp_of_names ha hb s, heq, hgt, hlt, fun _ _ => rfl, State.advance_pc_toNat _ 3, fun _ => rfl, rfl,
    rfl, rfl, rfl⟩

/-! ## A selector without an operation (R94, R125) -/

/-- Settles O30: the operands pass their check, and the ALU has no answer for the selector. -/
theorem otherAluSelectorIsUnsupported : Obligations.OtherAluSelectorIsUnsupported := by
  intro s code ra rb ha hb
  rcases aluInstr_cases (.other code) ra rb s with ⟨a, b, t, -, -, hal, -⟩ | ⟨a, b, -, -, -, e⟩ | ⟨h7, -⟩ | ⟨-, h7, -⟩
  · cases hal
  · exact ⟨_, e, ⟨rfl, rfl, rfl⟩, takeException_sameProgramState _ s, List.append_nil s.out⟩
  · exact absurd h7 ha.not_gt
  · exact absurd h7 hb.not_gt

/-- A core with the invariant has not halted, with no cause, or has the evidence of its cause; there is none for
UNSUPPORTED_ALU_OP. -/
theorem State.Inv.haltCause_ne_unsupportedAluOp {s : State} (h : s.Inv) : s.haltCause ≠ .unsupportedAluOp := by
  intro hc
  by_cases hr : s.runState = .halted
  · have hev : haltEvidence s = true := h.halted hr
    simp [haltEvidence, hc] at hev
  · have hnone : s.haltCause = .none := (h.notHalted hr).1
    cases hc.symm.trans hnone

/-- Settles O47: every reachable state has the invariant. -/
theorem unsupportedOperationIsUnreachable : Obligations.UnsupportedOperationIsUnreachable :=
  fun _ hs => ⟨hs.inv.haltCause_ne_unsupportedAluOp, legalFlags_iff.mp hs.inv.flags⟩

end Sys2Proof.Machine
end

section
/-!
PROOFS. The stack (43_stack.md R100 to R102): PUSH and POP of a register, each by its registers and memory, and what a
POP finds after a PUSH.
-/

namespace Sys2Proof.Machine

/-! ## The next states of PUSH and POP -/

/-- R100: the state after PUSH of `a`, which is read after the decrement. -/
def State.pushReg (s : State) (a : RegIndex) : State := (s.decSp.storeSp (s.decSp.reg a)).advance 2

/-- R101: the state after POP of `a`, which is written before the increment. -/
def State.popReg (s : State) (a : RegIndex) : State := (s.setReg a s.loadSp).incSp.advance 2

section
variable {ra : Byte} {a : RegIndex} (ha : ra.toNat = a.val) (s : State)
include ha

theorem exec_push_of_names : exec (.push ra) s = .next (s.pushReg a) := withReg_of_names ha s _

theorem exec_pop_of_names : exec (.pop ra) s = .next (s.popReg a) := withReg_of_names ha s _

end

section
variable (s : State) {a : RegIndex}

/-! ## PUSH -/

theorem State.pushReg_reg (a r : RegIndex) : (s.pushReg a).reg r = s.decSp.reg r := rfl

theorem State.pushReg_sp (a : RegIndex) : (s.pushReg a).sp = s.decSp.sp := rfl

theorem State.pushReg_reg_of_ne (a : RegIndex) {r : RegIndex} (hr : r ≠ 7) : (s.pushReg a).reg r = s.reg r := by
  rw [State.pushReg_reg, State.decSp_reg, if_neg hr]

/-- The byte at the decremented stack pointer is the register's, every other one is kept. -/
theorem State.memRead_pushReg (a : RegIndex) (b : Nat) :
    memRead (s.pushReg a).mem b = if b = s.decSp.sp.toNat then s.decSp.reg a else memRead s.mem b :=
  s.decSp.memRead_storeSp (s.decSp.reg a) b

/-- The byte PUSH leaves on top of the stack; for R7 it is the decremented stack pointer. -/
theorem State.loadSp_pushReg (a : RegIndex) : (s.pushReg a).loadSp = s.decSp.reg a :=
  (s.memRead_pushReg a _).trans (if_pos rfl)

theorem State.loadSp_pushReg_of_ne (ha : a ≠ 7) : (s.pushReg a).loadSp = s.reg a := by
  rw [State.loadSp_pushReg, State.decSp_reg, if_neg ha]

/-! ## POP -/

theorem State.popReg_sp_of_ne (ha : a ≠ 7) : (s.popReg a).sp = s.sp + 1#8 := by
  rw [← s.sp_setReg s.loadSp ha]
  exact State.incSp_sp _

/-- R101: POP R7 increments the byte popped. -/
theorem State.popReg_seven_sp : (s.popReg 7).sp = s.loadSp + 1#8 := by
  have hwritten : (s.setReg 7 s.loadSp).sp = s.loadSp := (s.reg_setReg 7 7 s.loadSp).trans (if_pos rfl)
  rw [← hwritten]
  exact State.incSp_sp _

theorem State.popReg_reg_of_ne (a : RegIndex) {r : RegIndex} (hr : r ≠ 7) :
    (s.popReg a).reg r = if r = a then s.loadSp else s.reg r := by
  rw [State.popReg, State.advance_reg, State.incSp_reg, if_neg hr, State.reg_setReg]

theorem State.popReg_reg_self (ha : a ≠ 7) : (s.popReg a).reg a = s.loadSp := by
  rw [s.popReg_reg_of_ne a ha, if_pos rfl]

/-! ## POP after PUSH -/

/-- The decrement moves the stack pointer, also across the wrap. -/
theorem State.sp_ne_decSp_sp : s.sp.toNat ≠ s.decSp.sp.toNat := by
  rw [State.decSp_toNat]
  omega

/-- The increment undoes the decrement, also across the wrap. -/
theorem State.decSp_sp_add_one : s.decSp.sp + 1#8 = s.sp := by
  rw [State.decSp_sp, BitVec.sub_add_cancel]

/-- PUSH R7 stores the decremented stack pointer, which POP R7 increments. -/
theorem State.popReg_pushReg_sp_of_iff {a c : RegIndex} (h : a = 7 ↔ c = 7) : ((s.pushReg a).popReg c).sp = s.sp := by
  by_cases hc : c = 7
  · obtain rfl := hc
    obtain rfl := h.mpr rfl
    rw [State.popReg_seven_sp, State.loadSp_pushReg]
    exact s.decSp_sp_add_one
  · rw [State.popReg_sp_of_ne _ hc, State.pushReg_sp, State.decSp_sp_add_one]

theorem State.popReg_pushReg_reg_self {a c : RegIndex} (ha : a ≠ 7) (hc : c ≠ 7) :
    ((s.pushReg a).popReg c).reg c = s.reg a := by
  rw [State.popReg_reg_self _ hc, s.loadSp_pushReg_of_ne ha]

/-- A PUSH and the POP after it leave the byte that was on top of the stack there. -/
theorem State.loadSp_popReg_pushReg {b c : RegIndex} (hb : b ≠ 7) (hc : c ≠ 7) :
    ((s.pushReg b).popReg c).loadSp = s.loadSp := by
  have hsp : ((s.pushReg b).popReg c).sp = s.sp := s.popReg_pushReg_sp_of_iff (iff_of_false hb hc)
  calc ((s.pushReg b).popReg c).loadSp
      = memRead (s.pushReg b).mem s.sp.toNat := by rw [State.loadSp, hsp]; rfl
    _ = s.loadSp := (s.memRead_pushReg b _).trans (if_neg s.sp_ne_decSp_sp)

end

/-! ## The obligations -/

/-- Settles O21: PUSH writes the stack pointer, then the byte it points at, then pc. -/
theorem pushStoresBelowStackPointer : Obligations.PushStoresBelowStackPointer := by
  intro s ra a ha
  refine ⟨_, exec_push_of_names ha s, s.decSp_toNat, s.pushReg_sp a, fun hne => s.loadSp_pushReg_of_ne hne, ?_,
    fun b hb => ?_, fun r hr => s.pushReg_reg_of_ne a (List.ne_of_not_mem_cons hr), State.advance_pc_toNat _ 2, rfl, rfl,
    rfl, rfl, rfl⟩
  · rintro rfl
    exact s.loadSp_pushReg 7
  · rw [State.memRead_pushReg, if_neg hb]

/-- Settles O22: POP writes the register, then the stack pointer as it then is, and pc. -/
theorem popReadsAtStackPointer : Obligations.PopReadsAtStackPointer := by
  intro s ra a ha
  refine ⟨_, exec_pop_of_names ha s, fun hne => ⟨s.popReg_reg_self hne, ?_⟩, ?_, fun r hr => ?_, fun _ => rfl,
    State.advance_pc_toNat _ 2, rfl, rfl, rfl, rfl, rfl⟩
  · rw [s.popReg_sp_of_ne hne]
    exact BitVec.toNat_add s.sp 1#8
  · rintro rfl
    rw [s.popReg_seven_sp]
    exact BitVec.toNat_add s.loadSp 1#8
  · simp only [List.mem_cons, List.not_mem_nil, or_false, not_or] at hr
    rw [s.popReg_reg_of_ne a hr.2, if_neg hr.1]

/-- Settles O41: the POP reads the byte the PUSH stored, at the decremented stack pointer. -/
theorem pushThenPopRestores : Obligations.PushThenPopRestores := by
  intro s ra a ha
  have hsp : ((s.pushReg a).popReg a).sp = s.sp := s.popReg_pushReg_sp_of_iff Iff.rfl
  refine ⟨_, _, exec_push_of_names ha s, exec_pop_of_names ha _, ?_, hsp, fun hne => ?_⟩
  · by_cases h7 : a = 7
    · obtain rfl := h7
      exact hsp
    · exact s.popReg_pushReg_reg_self h7 h7
  · rw [← s.decSp_toNat]
    exact s.loadSp_pushReg_of_ne hne

/-- Settles O42: the first POP finds the second byte pushed, and after it the first one is on top again. -/
theorem stackIsLastInFirstOut : Obligations.StackIsLastInFirstOut := by
  intro s ra rb rc rd a b c d ha hb hc hd ha7 hb7 hc7 hd7 hcd
  refine ⟨_, _, _, _, exec_push_of_names ha s, exec_push_of_names hb _, exec_pop_of_names hc _, exec_pop_of_names hd _,
    ?_, ?_, ?_⟩
  · rw [State.popReg_reg_of_ne _ d hc7, if_neg hcd, State.popReg_pushReg_reg_self _ hb7 hc7, s.pushReg_reg_of_ne a hb7]
  · rw [State.popReg_reg_self _ hd7, State.loadSp_popReg_pushReg _ hb7 hc7, s.loadSp_pushReg_of_ne ha7]
  · rw [State.popReg_sp_of_ne _ hd7, State.popReg_pushReg_sp_of_iff _ (iff_of_false hb7 hc7), State.pushReg_sp,
      State.decSp_sp_add_one]

end Sys2Proof.Machine
end

section
/-!
PROOFS. Subroutines (44_subroutine.md R105 to R107): CALL of a register and RET, each by its registers and memory, and
what a RET finds where a CALL left its return address.
-/

namespace Sys2Proof.Machine

/-! ## The next states of CALL and RET -/

/-- R105: the state after CALL of `a`, which is read after the decrement. -/
def State.callReg (s : State) (a : RegIndex) : State := (s.decSp.storeSp (s.pc + 2#8)).jump (s.decSp.reg a)

/-- R106: the state after RET, which loads pc before the increment. -/
def State.returned (s : State) : State := (s.jump s.loadSp).incSp

theorem exec_call_eq_callReg {ra : Byte} {a : RegIndex} (ha : ra.toNat = a.val) (s : State) :
    exec (.call ra) s = .next (s.callReg a) := exec_call_of_names ha s

theorem exec_ret (s : State) : exec .ret s = .next s.returned := rfl

section
variable (s : State)

/-! ## CALL -/

theorem State.callReg_pc (a : RegIndex) : (s.callReg a).pc = s.decSp.reg a := rfl

theorem State.callReg_sp (a : RegIndex) : (s.callReg a).sp = s.decSp.sp := rfl

theorem State.callReg_reg_of_ne (a : RegIndex) {r : RegIndex} (hr : r ≠ 7) : (s.callReg a).reg r = s.reg r :=
  (s.decSp_reg r).trans (if_neg hr)

/-- The byte at the decremented stack pointer is the return address, every other one is kept. -/
theorem State.memRead_callReg (a : RegIndex) (b : Nat) :
    memRead (s.callReg a).mem b = if b = s.decSp.sp.toNat then s.pc + 2#8 else memRead s.mem b :=
  s.decSp.memRead_storeSp (s.pc + 2#8) b

/-- The byte CALL leaves on top of the stack. -/
theorem State.loadSp_callReg (a : RegIndex) : (s.callReg a).loadSp = s.pc + 2#8 :=
  (s.memRead_callReg a _).trans (if_pos rfl)

/-! ## RET -/

theorem State.returned_pc : s.returned.pc = s.loadSp := rfl

theorem State.returned_sp : s.returned.sp = s.sp + 1#8 := State.incSp_sp _

theorem State.returned_reg_of_ne {r : RegIndex} (hr : r ≠ 7) : s.returned.reg r = s.reg r := by
  rw [State.returned, State.incSp_reg, if_neg hr, State.jump_reg]

/-! ## RET after CALL -/

/-- RET goes back to the return address from any state with the CALL's top of the stack. -/
theorem State.returned_pc_of_callReg {v : State} {a : RegIndex} (h : v.loadSp = (s.callReg a).loadSp) :
    v.returned.pc = s.pc + 2#8 := by
  rw [State.returned_pc, h, State.loadSp_callReg]

/-- RET restores the stack pointer from any state that has the one CALL left. -/
theorem State.returned_sp_of_callReg {v : State} {a : RegIndex} (h : v.sp = (s.callReg a).sp) :
    v.returned.sp = s.sp := by
  rw [State.returned_sp, h, State.callReg_sp, State.decSp_sp_add_one]

end

/-! ## The obligations -/

/-- Settles O24: RET writes pc, then the stack pointer, and nothing else. -/
theorem retPopsProgramCounter : Obligations.RetPopsProgramCounter := by
  intro s
  refine ⟨_, exec_ret s, s.returned_pc, ?_, fun r hr => s.returned_reg_of_ne (List.ne_of_not_mem_cons hr), fun _ => rfl,
    rfl, rfl, rfl, rfl, rfl⟩
  rw [State.returned_sp]
  exact BitVec.toNat_add s.sp 1#8

/-- Settles O23: CALL writes the stack pointer, then the byte it points at, then pc. -/
theorem callPushesReturnAddress : Obligations.CallPushesReturnAddress := by
  intro s ra a ha
  refine ⟨_, exec_call_eq_callReg ha s, s.decSp_toNat, s.callReg_sp a, ?_, fun b hb => ?_, fun hne => ?_, ?_,
    fun r hr => s.callReg_reg_of_ne a (List.ne_of_not_mem_cons hr), rfl, rfl, rfl, rfl, rfl⟩
  · rw [State.memRead_callReg, if_pos rfl]
    exact BitVec.toNat_add s.pc 2#8
  · rw [State.memRead_callReg, if_neg hb]
  · rw [State.callReg_pc, State.decSp_reg, if_neg hne]
  · rintro rfl
    rfl

/-- Settles O43: the byte RET loads is the one CALL stored, and its increment undoes CALL's decrement. -/
theorem retResumesAfterCall : Obligations.RetResumesAfterCall := by
  intro s t v ra a ha hcall hsp hbyte
  obtain rfl : s.callReg a = t := Host.Outcome.next.inj ((exec_call_eq_callReg ha s).symm.trans hcall)
  refine ⟨_, exec_ret v, ?_, s.returned_sp_of_callReg hsp⟩
  rw [s.returned_pc_of_callReg hbyte]
  exact BitVec.toNat_add s.pc 2#8

end Sys2Proof.Machine
end

section
/-!
PROOFS. Branches (45_branch.md R110 to R113): JMP, JEQ and JNE are one operation, taken or not, that writes pc alone.
-/

namespace Sys2Proof.Machine

/-! ## The frame and the next state of a branch -/

/-- Everything but pc is kept. -/
def State.SameButPc (s t : State) : Prop :=
  s.SameRegsBut t [] ∧ s.SameMemory t ∧ t.fl = s.fl ∧ t.out = s.out ∧ s.SameStatus t

/-- R110 to R112: the state after a branch on `a`, taken to the register's value or falling through. -/
def State.branch (s : State) (taken : Bool) (a : RegIndex) : State :=
  if taken then s.jump (s.reg a) else s.advance 2

section
variable (s : State)

theorem State.sameButPc_jump (target : Byte) : s.SameButPc (s.jump target) :=
  ⟨fun _ _ => rfl, fun _ => rfl, rfl, rfl, rfl, rfl, rfl⟩

theorem State.sameButPc_advance (n : Nat) : s.SameButPc (s.advance n) :=
  ⟨fun _ _ => rfl, fun _ => rfl, rfl, rfl, rfl, rfl, rfl⟩

theorem State.sameButPc_branch (taken : Bool) (a : RegIndex) : s.SameButPc (s.branch taken a) := by
  cases taken with
  | false => exact s.sameButPc_advance 2
  | true => exact s.sameButPc_jump (s.reg a)

/-- D8: nothing is added to the target. -/
theorem State.branch_pc_of_taken {taken : Bool} (h : taken = true) (a : RegIndex) :
    (s.branch taken a).pc = s.reg a := by
  rw [State.branch, if_pos h, State.jump_pc]

/-- D3: the fall-through wraps. -/
theorem State.branch_pc_toNat_of_not_taken {taken : Bool} (h : taken = false) (a : RegIndex) :
    (s.branch taken a).pc.toNat = (s.pc.toNat + 2) % 256 := by
  subst h
  exact s.advance_pc_toNat 2

theorem State.flE_eq_false_iff : s.flE = false ↔ s.fl.toNat % 2 = 0 := by
  rw [← Bool.not_eq_true, State.flE_iff]
  exact Nat.mod_two_ne_one

end

/-! ## JEQ and JNE as branches -/

section
variable {ra : Byte} {a : RegIndex} (ha : ra.toNat = a.val) (s : State)
include ha

theorem exec_jeq_eq_branch : exec (.jeq ra) s = .next (s.branch s.flE a) := exec_jeq_of_names ha s

theorem exec_jne_eq_branch : exec (.jne ra) s = .next (s.branch (!s.flE) a) := by
  rw [exec_jne_of_names ha]
  cases s.flE <;> rfl

end

/-! ## The obligations -/

/-- Settles O25: the next state is the jump to the register's value, which writes pc alone. -/
theorem jmpSetsProgramCounter : Obligations.JmpSetsProgramCounter := by
  intro s ra a ha
  exact ⟨_, exec_jmp_of_names ha s, s.jump_pc (s.reg a), s.sameButPc_jump (s.reg a)⟩

/-- Settles O26: JEQ is the branch taken when `fl.E` is set. -/
theorem jeqJumpsWhenEqualBitSet : Obligations.JeqJumpsWhenEqualBitSet := by
  intro s ra a ha
  refine ⟨_, exec_jeq_eq_branch ha s, fun hset => ?_, fun hclear => ?_, s.sameButPc_branch s.flE a⟩
  · exact s.branch_pc_of_taken (s.flE_iff.mpr hset) a
  · exact s.branch_pc_toNat_of_not_taken (s.flE_eq_false_iff.mpr hclear) a

/-- Settles O27: JNE is the branch taken when `fl.E` is clear. -/
theorem jneJumpsWhenEqualBitClear : Obligations.JneJumpsWhenEqualBitClear := by
  intro s ra a ha
  refine ⟨_, exec_jne_eq_branch ha s, fun hclear => ?_, fun hset => ?_, s.sameButPc_branch (!s.flE) a⟩
  · exact s.branch_pc_of_taken (Bool.not_eq_eq_eq_not.mpr (s.flE_eq_false_iff.mpr hclear)) a
  · exact s.branch_pc_toNat_of_not_taken (Bool.not_eq_eq_eq_not.mpr (s.flE_iff.mpr hset)) a

end Sys2Proof.Machine
end

section
/-!
PROOFS. Halting (46_halt.md R115): HLT is the halt with cause HLT, and a halt writes the run state, the cause and the
information alone.
-/

namespace Sys2Proof.Machine

theorem exec_hlt (s : State) : exec .hlt s = .next (s.haltWith .hlt 0x00#8) := rfl

/-! ## What a halt sets and what it keeps -/

theorem State.haltedWith_haltWith (s : State) (cause : HaltCause) (info : Byte) :
    (s.haltWith cause info).HaltedWith cause info :=
  ⟨s.haltWith_runState cause info, s.haltWith_haltCause cause info, s.haltWith_haltInfo cause info⟩

/-- D9: the program state a halt keeps includes pc. -/
theorem State.sameProgramState_haltWith (s : State) (cause : HaltCause) (info : Byte) :
    s.SameProgramState (s.haltWith cause info) :=
  ⟨fun r _ => s.haltWith_reg cause info r, s.haltWith_pc cause info, s.haltWith_fl cause info, fun _ => rfl⟩

/-- Settles O28: the next state is the halt with cause HLT and information 0, which writes no other field. -/
theorem hltHaltsCleanly : Obligations.HltHaltsCleanly := by
  intro s
  exact ⟨_, exec_hlt s, s.haltedWith_haltWith .hlt 0x00#8, s.sameProgramState_haltWith .hlt 0x00#8,
    s.haltWith_out .hlt 0x00#8⟩

end Sys2Proof.Machine
end

section
/-!
PROOFS. Faults and progress (60_exceptions.md R121 to R124, 70_reset_and_hazards.md R162): a fault is one taken exception,
and every step answers a next state.
-/

namespace Sys2Proof.Machine

/-! ## Faults -/

/-- A step keeps the halt cause, halts as HLT, or takes an exception as its whole effect. -/
theorem step_haltCause_cases {s t : State} (h : step s = .next t) :
    t.haltCause = s.haltCause ∨ t.haltCause = .hlt ∨ ∃ e, t = takeException e s := by
  rcases step_cases s with ⟨-, e⟩ | ⟨-, i, -, e⟩ | ⟨-, -, e⟩ <;> rw [e] at h
  · cases h
    exact .inl rfl
  · rcases (exec_effect h).status_cases with ⟨-, hcause, -⟩ | ⟨-, rfl⟩ | ⟨b, -, -, -, rfl⟩
    · exact .inl hcause
    · exact .inr (.inl rfl)
    · exact .inr (.inr ⟨.badRegister b, rfl⟩)
  · cases h
    exact .inr (.inr ⟨.badOpcode (s.fetchByte 0), rfl⟩)

/-- A core without a cause gets that of a fault by an exception only. -/
theorem exists_takeException_of_fault {s t : State} (hs : s.haltCause = .none) (h : step s = .next t)
    (hf : t.haltCause = .badOpcode ∨ t.haltCause = .badRegister ∨ t.haltCause = .unsupportedAluOp) :
    ∃ e, t = takeException e s := by
  rcases step_haltCause_cases h with hc | hc | he
  · simp [hc, hs] at hf
  · simp [hc] at hf
  · exact he

/-- R121, R122: BadOpcode alone has an event. -/
theorem CoreException.report_eq_ite (e : CoreException) (s : State) :
    e.report s = if e.cause = .badOpcode then [s.diagnostic] else [] := by
  cases e with
  | badOpcode | badRegister | unsupportedOperation => rfl

/-- Settles O32: the step took an exception, which keeps the program state and appends the exception's report. -/
theorem faultsArePrecise : Obligations.FaultsArePrecise := by
  intro s t _ hs h hf
  obtain ⟨e, rfl⟩ := exists_takeException_of_fault hs h hf
  refine ⟨takeException_sameProgramState e s, rfl, fun hc => ?_, fun hc => ?_⟩ <;> rw [takeException_haltCause] at hc
  · rw [takeException_out, e.report_eq_ite, if_pos hc]
  · rw [takeException_out, e.report_eq_ite, if_neg hc, List.append_nil]

/-! ## Progress -/

/-- The operand check answers a next state where the rest does. -/
theorem withReg_answers_next {b : Byte} {s : State} {k : RegIndex → Host.Outcome State Fault Refusal}
    (hk : ∀ r, ∃ t, k r = .next t) : ∃ t, withReg b s k = .next t := by
  rcases withReg_cases b s k with ⟨r, -, e⟩ | ⟨-, e⟩ <;> rw [e]
  · exact hk r
  · exact ⟨_, rfl⟩

/-- Also where the ALU has no operation for the selector. -/
theorem aluInstr_answers_next (op : AluOp) (ra rb : Byte) (s : State) : ∃ t, aluInstr op ra rb s = .next t := by
  rcases aluInstr_cases op ra rb s with ⟨-, -, t, -, -, -, e⟩ | ⟨-, -, -, -, -, e⟩ | ⟨-, e⟩ | ⟨-, -, e⟩ <;>
    exact ⟨_, e⟩

theorem exec_answers_next (i : Instr) (s : State) : ∃ t, exec i s = .next t := by
  cases i with
  | hlt | ret => exact ⟨_, rfl⟩
  | push | pop | prn | call | jmp | jeq | jne | ldi => exact withReg_answers_next fun _ => ⟨_, rfl⟩
  | add ra rb => exact aluInstr_answers_next .add ra rb s
  | mul ra rb => exact aluInstr_answers_next .mul ra rb s
  | cmp ra rb => exact aluInstr_answers_next .cmp ra rb s

/-- Settles O15: outside RUNNING the state is answered, an instruction has a next state for every operand, and an
unrecognized opcode takes BadOpcode. -/
theorem stepAlwaysAnswersNext : Obligations.StepAlwaysAnswersNext := by
  intro s
  rcases step_cases s with ⟨-, e⟩ | ⟨-, i, -, e⟩ | ⟨-, -, e⟩ <;> rw [e]
  · exact ⟨s, rfl⟩
  · exact exec_answers_next i s
  · exact ⟨_, rfl⟩

end Sys2Proof.Machine
end

section
/-!
PROOFS. Reset, Load and Start (70_reset_and_hazards.md R140 to R147): what each answers by run state, and what a program
that they boot executes first.
-/

namespace Sys2Proof.Machine

/-! ## Moves in any run state -/

/-- Settles O52: the reset state does not depend on the state before. -/
theorem resetInAnyState : Obligations.ResetInAnyState := fun _ => rfl

/-- Settles O46: a move of the host resets the core, keeps the state, or acts on an IDLE core, whose halt fields it
keeps. -/
theorem hostActionKeepsInvariant : Obligations.HostActionKeepsInvariant := fun _ _ _ hs h => hostAct_inv hs h

/-! ## Start -/

theorem hostStart_of_idle {s : State} (hr : s.runState = .idle) : hostStart s = { s with runState := .running } := by
  simp only [hostStart, hr]

theorem hostStart_of_not_idle {s : State} (hr : s.runState ≠ .idle) : hostStart s = s := by
  cases h : s.runState with
  | idle => exact absurd h hr
  | running | halted => simp only [hostStart, h]

/-- Settles O51: in IDLE the run state alone is written. -/
theorem startOnlyFromIdle : Obligations.StartOnlyFromIdle := by
  intro s
  refine ⟨fun hr => ?_, fun hr => congrArg _ (hostStart_of_not_idle hr)⟩
  exact ⟨{ s with runState := .running }, congrArg _ (hostStart_of_idle hr), rfl, rfl, rfl,
    ⟨fun _ _ => rfl, rfl, rfl, fun _ => rfl⟩, rfl⟩

/-! ## A HALTED core -/

/-- R128, R134: a move other than Reset is refused, or is a Start without effect. -/
theorem eq_of_hostAct_of_halted {a : HostAction} {s t : State} (hr : s.runState = .halted) (ha : a ≠ .reset)
    (h : hostAct a s = .next t) : t = s := by
  have hne : s.runState ≠ .idle := by simp [hr]
  cases a with
  | reset => exact absurd rfl ha
  | load words => cases (hostLoad_of_not_idle words hne).symm.trans h
  | memWrite addr v => cases (hostMemWrite_of_halted v hr).symm.trans h
  | start =>
    cases h
    exact hostStart_of_not_idle hne

/-- Settles O34: a HALTED core takes no step, and the host has only Reset for it. -/
theorem onlyResetLeavesHalted : Obligations.OnlyResetLeavesHalted := by
  intro s hr
  exact ⟨noStepOutsideRunning s (by simp [hr]), fun _ _ ha h => eq_of_hostAct_of_halted hr ha h, resetInAnyState s⟩

/-! ## Load -/

section
variable (m : Memory) {words : List Byte} {addr : Nat}

/-- R146: word k of a load that fits is at address k. -/
theorem memRead_memLoad_of_lt (hlen : words.length ≤ Config.memSize) (h : addr < words.length) :
    memRead (memLoad m Config.loadBase words) addr = words[addr] := by
  rw [memRead_of_lt _ (Nat.lt_of_lt_of_le h hlen), memLookup_memLoad]
  simp [h]

theorem memRead_memLoad_of_ge (h : words.length ≤ addr) :
    memRead (memLoad m Config.loadBase words) addr = memRead m addr := by
  simp only [memRead, memLookup_memLoad]
  simp [Nat.not_lt.mpr h]

end

theorem hostLoad_of_idle {s : State} {words : List Byte} (hr : s.runState = .idle)
    (hlen : words.length ≤ Config.memSize) :
    hostLoad words s = .next { s with mem := memLoad s.mem Config.loadBase words } := by
  simp only [hostLoad, hr, if_pos hlen]

/-- Settles O48: memory alone is written, by the load's words from address 0 on. -/
theorem loadWritesWordsFromZero : Obligations.LoadWritesWordsFromZero := by
  intro s words hr hlen
  exact ⟨{ s with mem := memLoad s.mem Config.loadBase words }, hostLoad_of_idle hr hlen,
    fun _ h => memRead_memLoad_of_lt s.mem hlen h, fun _ h => memRead_memLoad_of_ge s.mem h, fun _ _ => rfl, rfl, rfl,
    rfl, rfl, rfl, rfl⟩

/-! ## Reset, Load and Start -/

/-- R143: a program's words in the reset state. -/
def loadedState (words : List Byte) : State :=
  { State.reset with mem := memLoad State.reset.mem Config.loadBase words }

/-- R143: the state that a run's first fetch finds. -/
def bootState (words : List Byte) : State := { loadedState words with runState := .running }

theorem boot_eq_bootState {words : List Byte} (hlen : words.length ≤ Config.memSize) (s : State) :
    boot words s = .next (bootState words) := by
  have hload : hostLoad words (hostReset s) = .next (loadedState words) := hostLoad_of_idle rfl hlen
  have hstart : hostStart (loadedState words) = bootState words := hostStart_of_idle rfl
  simp only [boot, hload, hstart]

/-- R141: the first fetch is at address 0, where the program's first word is. -/
theorem codeByte_bootState {words : List Byte} (hlen : words.length ≤ Config.memSize) {k : Nat}
    (hk : k < words.length) : (bootState words).codeByte k = words[k] := by
  have hpc : (bootState words).pc.toNat + k = k := Nat.zero_add k
  have htop : k < Config.memSize := Nat.lt_of_lt_of_le hk hlen
  rw [State.codeByte_of_le (hpc.trans_le (Nat.le_of_lt_succ htop)), hpc]
  exact memRead_memLoad_of_lt State.reset.mem hlen hk

/-- Settles O53: the code bytes of the booted state begin with the encoding of the program's first instruction. -/
theorem bootRunsFirstInstruction : Obligations.BootRunsFirstInstruction := by
  intro s i rest hlen
  refine ⟨bootState (encode i ++ rest), boot_eq_bootState hlen s, rfl, rfl, ?_⟩
  refine stepRunsEncodedInstruction _ i rfl fun k hk => ?_
  have hk' : k < (encode i ++ rest).length := by
    rw [List.length_append]
    omega
  rw [codeByte_bootState hlen hk', List.getElem_append_left hk]

end Sys2Proof.Machine
end
